-- ==== Sys2Proof/Word.lean ====
section
/-! DEFINITION. The widths of the hardware's values (spec 00_scope R6, R8): bytes, words, addresses in an
instruction, register indices, nibbles. Every value is an unsigned bit vector of a stated width; a memory address is a
plain `Nat` (20_memory R39). -/

namespace Sys2Proof

/-- A memory byte, a general register, a timer, an immediate NN (R6, R54). -/
abbrev Byte := BitVec 8

/-- An instruction word, PC, I or a stack entry (R6). -/
abbrev Word := BitVec 16

/-- The NNN field: a 12-bit address inside an instruction word (R54). -/
abbrev Addr := BitVec 12

/-- The X or Y field: the index of a general register, every value legal (R54, R55). -/
abbrev Reg := BitVec 4

/-- The N field: the height of a sprite (R54, R55). -/
abbrev Nibble := BitVec 4

/-- VF, register 15, the flag register (R6, R18). -/
def VF : Reg := 15#4

end Sys2Proof
end

