-- ==== Sys2Proof/Syntax.lean ====
section
/-! DEFINITION. The 35 instructions of spec/opcode_table.json (30_encoding R56), one constructor per row, in the
table's order. The operands are the fields of the word (R54); the field a row ignores (Y of SHR and SHL, NNN of SYS,
R63) is kept, so that an instruction names its word. -/

namespace Sys2Proof

inductive Instr where
  | cls                              -- 00E0  CLS
  | ret                              -- 00EE  RET
  | sys     (nnn : Addr)             -- 0NNN  SYS addr
  | jp      (nnn : Addr)             -- 1NNN  JP addr
  | call    (nnn : Addr)             -- 2NNN  CALL addr
  | seByte  (x : Reg) (nn : Byte)    -- 3XNN  SE Vx, byte
  | sneByte (x : Reg) (nn : Byte)    -- 4XNN  SNE Vx, byte
  | seReg   (x y : Reg)              -- 5XY0  SE Vx, Vy
  | ldByte  (x : Reg) (nn : Byte)    -- 6XNN  LD Vx, byte
  | addByte (x : Reg) (nn : Byte)    -- 7XNN  ADD Vx, byte
  | ldReg   (x y : Reg)              -- 8XY0  LD Vx, Vy
  | orReg   (x y : Reg)              -- 8XY1  OR Vx, Vy
  | andReg  (x y : Reg)              -- 8XY2  AND Vx, Vy
  | xorReg  (x y : Reg)              -- 8XY3  XOR Vx, Vy
  | addReg  (x y : Reg)              -- 8XY4  ADD Vx, Vy
  | subReg  (x y : Reg)              -- 8XY5  SUB Vx, Vy
  | shr     (x y : Reg)              -- 8XY6  SHR Vx
  | subn    (x y : Reg)              -- 8XY7  SUBN Vx, Vy
  | shl     (x y : Reg)              -- 8XYE  SHL Vx
  | sneReg  (x y : Reg)              -- 9XY0  SNE Vx, Vy
  | ldI     (nnn : Addr)             -- ANNN  LD I, addr
  | jpV0    (nnn : Addr)             -- BNNN  JP V0, addr
  | rnd     (x : Reg) (nn : Byte)    -- CXNN  RND Vx, byte
  | drw     (x y : Reg) (n : Nibble) -- DXYN  DRW Vx, Vy, N
  | skp     (x : Reg)                -- EX9E  SKP Vx
  | sknp    (x : Reg)                -- EXA1  SKNP Vx
  | ldVxDt  (x : Reg)                -- FX07  LD Vx, DT
  | ldVxK   (x : Reg)                -- FX0A  LD Vx, K
  | ldDt    (x : Reg)                -- FX15  LD DT, Vx
  | ldSt    (x : Reg)                -- FX18  LD ST, Vx
  | addI    (x : Reg)                -- FX1E  ADD I, Vx
  | ldF     (x : Reg)                -- FX29  LD F, Vx
  | ldB     (x : Reg)                -- FX33  LD B, Vx
  | stRegs  (x : Reg)                -- FX55  LD [I], Vx
  | ldRegs  (x : Reg)                -- FX65  LD Vx, [I]
  deriving DecidableEq, Repr

end Sys2Proof
end

