-- ==== Sys2Proof/Decode.lean ====
section
/-! DEFINITION. The decoder, total on any bytes, and the encoder, both written from the opcode table of 30_encoding
R56 and the fields of R54. An instruction is one 16-bit word, its high byte first (R41, R52). -/

namespace Sys2Proof

/-- What `decode` of R54 gives: the five fields, computed for every word. -/
structure Fields where
  nnn : Addr
  nn  : Byte
  n   : Nibble
  x   : Reg
  y   : Reg
  deriving DecidableEq, Repr

/-- The field extraction of R54: NNN = w[11:0], NN = w[7:0], N = w[3:0], X = w[11:8], Y = w[7:4]. -/
def fieldsOf (w : Word) : Fields :=
  { nnn := w.extractLsb' 0 12, nn := w.extractLsb' 0 8, n := w.extractLsb' 0 4,
    x := w.extractLsb' 8 4, y := w.extractLsb' 4 4 }

/-- One record of the opcode table (R56): `pattern` is the table's match column, `build` names the instruction. -/
structure OpcodeRow where
  mask    : Word
  pattern : Word
  build   : Fields → Instr

/-- A record matches w when (w & mask) == pattern (R56). -/
def rowMatches (r : OpcodeRow) (w : Word) : Bool := (w &&& r.mask) == r.pattern

/-- Rows 1 to 10 of R56: major opcodes 0 to 7; CLS and RET precede SYS (D2). -/
def rowsControl : List OpcodeRow :=
  [ ⟨0xFFFF, 0x00E0, fun _ => .cls⟩,
    ⟨0xFFFF, 0x00EE, fun _ => .ret⟩,
    ⟨0xF000, 0x0000, fun f => .sys f.nnn⟩,
    ⟨0xF000, 0x1000, fun f => .jp f.nnn⟩,
    ⟨0xF000, 0x2000, fun f => .call f.nnn⟩,
    ⟨0xF000, 0x3000, fun f => .seByte f.x f.nn⟩,
    ⟨0xF000, 0x4000, fun f => .sneByte f.x f.nn⟩,
    ⟨0xF00F, 0x5000, fun f => .seReg f.x f.y⟩,
    ⟨0xF000, 0x6000, fun f => .ldByte f.x f.nn⟩,
    ⟨0xF000, 0x7000, fun f => .addByte f.x f.nn⟩ ]

/-- Rows 11 to 19 of R56: the register ALU of major opcode 8. -/
def rowsAlu : List OpcodeRow :=
  [ ⟨0xF00F, 0x8000, fun f => .ldReg f.x f.y⟩,
    ⟨0xF00F, 0x8001, fun f => .orReg f.x f.y⟩,
    ⟨0xF00F, 0x8002, fun f => .andReg f.x f.y⟩,
    ⟨0xF00F, 0x8003, fun f => .xorReg f.x f.y⟩,
    ⟨0xF00F, 0x8004, fun f => .addReg f.x f.y⟩,
    ⟨0xF00F, 0x8005, fun f => .subReg f.x f.y⟩,
    ⟨0xF00F, 0x8006, fun f => .shr f.x f.y⟩,
    ⟨0xF00F, 0x8007, fun f => .subn f.x f.y⟩,
    ⟨0xF00F, 0x800E, fun f => .shl f.x f.y⟩ ]

/-- Rows 20 to 26 of R56: major opcodes 9 to E. -/
def rowsMiddle : List OpcodeRow :=
  [ ⟨0xF00F, 0x9000, fun f => .sneReg f.x f.y⟩,
    ⟨0xF000, 0xA000, fun f => .ldI f.nnn⟩,
    ⟨0xF000, 0xB000, fun f => .jpV0 f.nnn⟩,
    ⟨0xF000, 0xC000, fun f => .rnd f.x f.nn⟩,
    ⟨0xF000, 0xD000, fun f => .drw f.x f.y f.n⟩,
    ⟨0xF0FF, 0xE09E, fun f => .skp f.x⟩,
    ⟨0xF0FF, 0xE0A1, fun f => .sknp f.x⟩ ]

/-- Rows 27 to 35 of R56: major opcode F. -/
def rowsMisc : List OpcodeRow :=
  [ ⟨0xF0FF, 0xF007, fun f => .ldVxDt f.x⟩,
    ⟨0xF0FF, 0xF00A, fun f => .ldVxK f.x⟩,
    ⟨0xF0FF, 0xF015, fun f => .ldDt f.x⟩,
    ⟨0xF0FF, 0xF018, fun f => .ldSt f.x⟩,
    ⟨0xF0FF, 0xF01E, fun f => .addI f.x⟩,
    ⟨0xF0FF, 0xF029, fun f => .ldF f.x⟩,
    ⟨0xF0FF, 0xF033, fun f => .ldB f.x⟩,
    ⟨0xF0FF, 0xF055, fun f => .stRegs f.x⟩,
    ⟨0xF0FF, 0xF065, fun f => .ldRegs f.x⟩ ]

/-- The opcode table of R56, in its order. -/
def opcodeTable : List OpcodeRow := rowsControl ++ rowsAlu ++ rowsMiddle ++ rowsMisc

/-- Why bytes are no instruction. -/
inductive DecodeReject where
  /-- Fewer than two bytes: no word (R52). -/
  | truncated
  /-- The word matches no row (R58, R61). -/
  | unmatched (w : Word)
  deriving DecidableEq, Repr

/-- The first record of the table that matches w, applied to w's fields (R56, R59). -/
def decodeWord (w : Word) : Except DecodeReject Instr :=
  match opcodeTable.find? (rowMatches · w) with
  | some r => .ok (r.build (fieldsOf w))
  | none => .error (.unmatched w)

/-- The word of two bytes in memory order: the byte at the lower address is bits 15:8 (R41). -/
def wordOfBytes (hi lo : Byte) : Word := hi ++ lo

/-- The instruction at the head of a byte sequence, and the rest of it. -/
def decode : List Byte → Except DecodeReject (Instr × List Byte)
  | hi :: lo :: rest =>
    match decodeWord (wordOfBytes hi lo) with
    | .ok i => .ok (i, rest)
    | .error e => .error e
  | _ => .error .truncated

/-- The byte w[15:8], stored at the lower address (R41). -/
def highByte (w : Word) : Byte := w.extractLsb' 8 8

/-- The byte w[7:0], stored at the higher address (R41). -/
def lowByte (w : Word) : Byte := w.extractLsb' 0 8

/-- The NNN format: major opcode, address (R53). -/
def wordNNN (op : BitVec 4) (nnn : Addr) : Word := op ++ nnn

/-- The XNN format: major opcode, register, byte (R53). -/
def wordXNN (op : BitVec 4) (x : Reg) (nn : Byte) : Word := op ++ x ++ nn

/-- The XYF and XYN formats: major opcode, two registers, function code or N (R53). -/
def wordXYN (op : BitVec 4) (x y : Reg) (n : Nibble) : Word := op ++ x ++ y ++ n

/-- The word of an instruction, written from the encoding column of R56. -/
def encodeWord : Instr → Word
  | .cls         => 0x00E0#16
  | .ret         => 0x00EE#16
  | .sys nnn     => wordNNN 0x0#4 nnn
  | .jp nnn      => wordNNN 0x1#4 nnn
  | .call nnn    => wordNNN 0x2#4 nnn
  | .seByte x nn  => wordXNN 0x3#4 x nn
  | .sneByte x nn => wordXNN 0x4#4 x nn
  | .seReg x y   => wordXYN 0x5#4 x y 0x0#4
  | .ldByte x nn  => wordXNN 0x6#4 x nn
  | .addByte x nn => wordXNN 0x7#4 x nn
  | .ldReg x y   => wordXYN 0x8#4 x y 0x0#4
  | .orReg x y   => wordXYN 0x8#4 x y 0x1#4
  | .andReg x y  => wordXYN 0x8#4 x y 0x2#4
  | .xorReg x y  => wordXYN 0x8#4 x y 0x3#4
  | .addReg x y  => wordXYN 0x8#4 x y 0x4#4
  | .subReg x y  => wordXYN 0x8#4 x y 0x5#4
  | .shr x y     => wordXYN 0x8#4 x y 0x6#4
  | .subn x y    => wordXYN 0x8#4 x y 0x7#4
  | .shl x y     => wordXYN 0x8#4 x y 0xE#4
  | .sneReg x y  => wordXYN 0x9#4 x y 0x0#4
  | .ldI nnn     => wordNNN 0xA#4 nnn
  | .jpV0 nnn    => wordNNN 0xB#4 nnn
  | .rnd x nn    => wordXNN 0xC#4 x nn
  | .drw x y n   => wordXYN 0xD#4 x y n
  | .skp x       => wordXNN 0xE#4 x 0x9E#8
  | .sknp x      => wordXNN 0xE#4 x 0xA1#8
  | .ldVxDt x    => wordXNN 0xF#4 x 0x07#8
  | .ldVxK x     => wordXNN 0xF#4 x 0x0A#8
  | .ldDt x      => wordXNN 0xF#4 x 0x15#8
  | .ldSt x      => wordXNN 0xF#4 x 0x18#8
  | .addI x      => wordXNN 0xF#4 x 0x1E#8
  | .ldF x       => wordXNN 0xF#4 x 0x29#8
  | .ldB x       => wordXNN 0xF#4 x 0x33#8
  | .stRegs x    => wordXNN 0xF#4 x 0x55#8
  | .ldRegs x    => wordXNN 0xF#4 x 0x65#8

/-- The two bytes of an instruction as memory holds them (R41). -/
def encode (i : Instr) : List Byte := [highByte (encodeWord i), lowByte (encodeWord i)]

/-- The bytes of the word whose table bits are w: the table's only word is bits 15:0, and a bit above nbits is 0. -/
def tableBytes (nbits w : Nat) : List Byte :=
  let word : Word := BitVec.ofNat 16 (w % 2 ^ nbits)
  [highByte word, lowByte word]

/-- The instruction the decoder reads from a word given as spec/opcode_table.json numbers its bits. -/
def decodeTableWord (nbits w : Nat) : Option Instr :=
  match decode (tableBytes nbits w) with
  | .ok (i, _) => some i
  | .error _ => none

end Sys2Proof
end

