-- ==== Sys2Proof/Config.lean ====
section
/-! DEFINITION. What an implementation fixes and what nobody fixes: the sizes of 00_scope R6, the parameters of
00_scope R7 with the spec's defaults, and the free values (opaque constants: no value of them can be proved). -/

namespace Sys2Proof.Config

/-- MEM_SIZE: addresses 0x000 to 0xFFF (R6, R38). -/
def memSize : Nat := 4096

/-- PROGRAM_BASE: the load address and the reset PC (R6, R44). -/
def programBase : Nat := 0x200

/-- FONT_SIZE: 16 glyphs of 5 bytes from address 0 (R6, R32). -/
def fontSize : Nat := 80

/-- DISPLAY_WIDTH (R6, R34). -/
def displayWidth : Nat := 64

/-- The default of TICK_RATE_HZ (R7, R143). -/
def defaultTickRateHz : Nat := 60

/-- The default of STEPS_PER_TICK (R7, R134). -/
def defaultStepsPerTick : Nat := 10

/-- What a data access at an address of 0x1000 or more does (R46). -/
inductive OorAccess where
  | fault   -- `faulted <- OutOfRange(a)`, the state is frozen (R111); the spec's default
  | wrap    -- the access goes to a mod 4096
  | drop    -- a read gives a draw, a write has no effect
  deriving DecidableEq, Repr

/-- What a word that matches no opcode row, and a SYS word, does (R61, R67). -/
inductive UnmatchedPolicy where
  | noop    -- nothing more happens; the spec's default
  | refuse  -- `faulted <- Refused(w)`
  deriving DecidableEq, Repr

/-- DISPLAY_MAP: how a toggle coordinate selects a pixel (R35). `adapter` stands for every mapping but the default one:
off the screen it is a free function (`adapterPixel`, log 5). -/
inductive DisplayMap where
  | flatModular
  | adapter
  deriving DecidableEq, Repr

/-- Glyphs 0 to 7 of the default FONT (R32). -/
def fontLow : List Byte :=
  [0xF0, 0x90, 0x90, 0x90, 0xF0, 0x20, 0x60, 0x20, 0x20, 0x70,
   0xF0, 0x10, 0xF0, 0x80, 0xF0, 0xF0, 0x10, 0xF0, 0x10, 0xF0,
   0x90, 0x90, 0xF0, 0x10, 0x10, 0xF0, 0x80, 0xF0, 0x10, 0xF0,
   0xF0, 0x80, 0xF0, 0x90, 0xF0, 0xF0, 0x10, 0x20, 0x40, 0x40]

/-- Glyphs 8 to F of the default FONT (R32). -/
def fontHigh : List Byte :=
  [0xF0, 0x90, 0xF0, 0x90, 0xF0, 0xF0, 0x90, 0xF0, 0x10, 0xF0,
   0xF0, 0x90, 0xF0, 0x90, 0x90, 0xE0, 0x90, 0xE0, 0x90, 0xE0,
   0xF0, 0x80, 0x80, 0x80, 0xF0, 0xE0, 0x90, 0x90, 0x90, 0xE0,
   0xF0, 0x80, 0xF0, 0x80, 0xF0, 0xF0, 0x80, 0xF0, 0x80, 0x80]

/-- The spec's default FONT: the 80-byte table of R32 (from general knowledge, D11). PRESUMED by the spec (log 4). -/
def defaultFont : List Byte := fontLow ++ fontHigh

/-- The parameters of R7 that a step reads. TICK_RATE_HZ and STEPS_PER_TICK are the arguments of run() (R134). -/
structure Params where
  font          : List Byte
  displayHeight : Nat
  displayMap    : DisplayMap
  oorAccess     : OorAccess
  unmatched     : UnmatchedPolicy
  deriving DecidableEq, Repr

/-- The defaults the spec takes (R7). -/
def defaultParams : Params :=
  { font := defaultFont, displayHeight := 32, displayMap := .flatModular, oorAccess := .fault, unmatched := .noop }

/-- FREE VALUE (R96, D20, U9): the byte the random source gives at the n-th draw. Log 6. -/
opaque randomByte : Nat → Byte

/-- FREE VALUE (R100, D16, U10): the answer of KeyDown for a key code above 15, at the n-th draw. Log 7. -/
opaque keyDownDraw : Nat → Bool

/-- FREE VALUE (R46, OOR_ACCESS = drop): what a read at an address of 0x1000 or more gives, at the n-th draw. Log 8. -/
opaque droppedRead : Nat → Byte

/-- FREE VALUE (R31, U11): whether the environment holds key k when the core is constructed. Log 9. -/
opaque keyHeldAtReset : Nat → Bool

/-- FREE FUNCTION (R35): where a DISPLAY_MAP other than flat_modular puts a coordinate (x, y) off a screen of height h,
before it is reduced to a pixel of the bitmap. Log 5. -/
opaque adapterPixel : (h x y : Nat) → Nat

end Sys2Proof.Config
end

