-- ==== Sys2Proof/Machine/State.lean ====
section
/-! DEFINITION. The state of the machine as plain data (10_state R14), with the adapters' state, inputs and outputs the
rules refer to (R31, R36, 60_exceptions R119 to R127, 70_reset_and_hazards R134), and the state right after reset
(R131). -/

namespace Sys2Proof.Machine

/-- The records `faulted` can hold (10_state R37). The two ways a run stops for good until reset() (60_exceptions R111).
They stand in `State.faulted`: R111 ends the step at the access with a next state, so no step of this model answers
`Host.Outcome.fault`. Safe: a run that reaches one is frozen, and `Safe` (Safety.lean) excludes it. -/
inductive Fault where
  /-- `OutOfRange(a)`: a data access at a >= 0x1000 under OOR_ACCESS = fault. Raised by DRW, LD B, LD [I], LD Vx, [I]
  and loadProgram() (R46, R109). Safe: the source fixes no result. -/
  | outOfRange (a : Nat)
  /-- `Refused(w)`: an unmatched or SYS word under UNMATCHED_POLICY = refuse (R61, R67). Safe: the model gives the word
  no meaning. -/
  | refused (w : Word)
  deriving DecidableEq, Repr

/-- Why an instruction would have no meaning in this model. -/
inductive Refusal where
  /-- An arm of `exec` without a meaning. Raised by nothing: every arm has its meaning. Safe. -/
  | notModelled (mnemonic : String)
  deriving DecidableEq, Repr

/-- What loadProgram() answers its caller (R127). -/
inductive LoadResult where
  | ok
  | empty           -- LoadError::Empty
  | memoryCorrupt   -- LoadError::MemoryCorrupt
  | faulted         -- the load ended at an out-of-range byte, or the state was frozen: no LoadError (R127, log 13)
  deriving DecidableEq, Repr

/-- What the core sends out: the adapter requests (R10, R119, R122), the diagnostic log (R36, R110) and the answers of
loadProgram() (R127). -/
inductive Output where
  | dispClear                        -- DispClear (R68, R131)
  | dispToggle (x y : Nat)           -- DispToggle(x, y) (R98)
  | dispPresent                      -- DispPresent (R98)
  | startTone                        -- StartTone (R118)
  | stopTone                         -- StopTone (R118)
  | fetchBoundsError (pc : Word)     -- a record of the diagnostic log (R110)
  | loadReturned (r : LoadResult)    -- loadProgram()'s answer to its caller (R127)
  deriving DecidableEq, Repr

/-- The host's operations on the core (60_exceptions R123 to R127, 70_reset_and_hazards R131, R134). Key codes are 0 to
15 (D21). `loadProgram none` is the call with its bytes absent. -/
inductive HostEvent where
  | reset
  | pause
  | resume
  | keyPress (k : BitVec 4)
  | keyRelease (k : BitVec 4)
  | loadProgram (bytes : Option (List Byte))
  | run (tickRateHz stepsPerTick : Nat)
  deriving DecidableEq, Repr

/-- The clock-driven loop (R134): run()'s two arguments and how many steps of the current tick are done. -/
structure Clock where
  rateHz  : Nat
  perTick : Nat
  done    : Nat
  deriving DecidableEq, Repr

/-- Memory as (address, byte) pairs: addresses strictly rising, none at or above 0x1000, no entry equal to what an
unlisted address reads as. `Memory.wf` (Ops.lean) says so. -/
abbrev Memory := List Host.Cell

/-- The display bitmap (R34) as the strictly rising list of the indices p with disp[p] = 1. `Bitmap.wf` says so. -/
abbrev Bitmap := List Nat

/-- The state. The first thirteen fields are the record of R14. -/
structure State where
  mem     : Memory
  v       : Vector Byte 16
  i       : Word
  pc      : Word
  stack   : Vector Word 16
  sp      : BitVec 4
  dt      : Byte
  st      : Byte
  halted  : Bool
  keyWait : Option Reg
  disp    : Bitmap
  fresh   : Bool
  faulted : Option Fault
  /-- The keys the input adapter holds down (R31, R126). -/
  keys    : Vector Bool 16
  /-- What has been sent out, newest first (log 10). -/
  outputs : List Output
  /-- The host events that have arrived and are not yet applied, oldest first (R124, R134; log 11). -/
  pending : List HostEvent
  /-- `none`: the host drives with step() alone; `some`: run() has started the loop (R133, R134; log 12). -/
  clock   : Option Clock
  /-- The model's own: how many draws have been taken (R10; log 6). -/
  draws   : Nat
  /-- The parameters of R7, the same in every state of a run (log 1). -/
  params  : Config.Params
  deriving DecidableEq, Repr

/-- The machine right after construction (R131): reset() has been called and nothing else has happened (R133). -/
def State.reset : State :=
  { mem := []
    v := Vector.replicate 16 0
    i := 0
    pc := 0x200
    stack := Vector.replicate 16 0
    sp := 0
    dt := 0
    st := 0
    halted := false
    keyWait := none
    disp := []
    fresh := true
    faulted := none
    keys := Vector.ofFn fun k => Config.keyHeldAtReset k.val
    outputs := [.dispClear]
    pending := []
    clock := none
    draws := 0
    params := Config.defaultParams }

end Sys2Proof.Machine
end

