-- ==== Sys2Proof/Machine/Ops.lean ====
section
/-! DEFINITION. The named operations every rule is written with: memory (20_memory), registers, the anomaly
`raise` (60_exceptions R111; the hardware's only counterpart of taking an exception, R114), the display requests (R119),
the key request (R120) and the draws (00_scope R10). -/

namespace Sys2Proof.Machine

/-! ## Memory as data -/

/-- What an address with no entry reads as: the reset contents under the default FONT (R32, R38, R131). -/
def Memory.unlisted (a : Nat) : Byte := Config.defaultFont.getD a 0

/-- The byte at a. -/
def Memory.read : Memory → Nat → Byte
  | [], a => Memory.unlisted a
  | (k, b) :: m, a => if k = a then b else Memory.read m a

/-- Memory with the byte at a set to b, in canonical form: an entry equal to the unlisted byte is not kept. -/
def Memory.write : Memory → Nat → Byte → Memory
  | [], a, b => if b = Memory.unlisted a then [] else [(a, b)]
  | (k, c) :: m, a, b =>
    if a < k then (if b = Memory.unlisted a then (k, c) :: m else (a, b) :: (k, c) :: m)
    else if a = k then (if b = Memory.unlisted a then m else (a, b) :: m)
    else (k, c) :: Memory.write m a b

/-- Canonical form from address lo on: rising addresses below 0x1000, no entry equal to the unlisted byte. -/
def Memory.wfFrom (lo : Nat) : Memory → Bool
  | [] => true
  | (k, b) :: m => decide (lo ≤ k) && decide (k < Config.memSize) && b != Memory.unlisted k && Memory.wfFrom (k + 1) m

/-- The canonical form of memory. -/
def Memory.wf (m : Memory) : Bool := Memory.wfFrom 0 m

/-- The memory reset() leaves: font[a] for a below 80, zero elsewhere (R131). A font of fewer bytes reads as zero past its
end (log 4). -/
def Memory.withFont (font : List Byte) : Memory :=
  (List.range Config.fontSize).foldl (fun m a => Memory.write m a (font.getD a 0)) []

/-! ## The bitmap as data -/

/-- disp[p] = 1. -/
def Bitmap.isSet (d : Bitmap) (p : Nat) : Bool := d.contains p

/-- The bitmap with disp[p] <- 1 - disp[p] (R119). -/
def Bitmap.toggle : Bitmap → Nat → Bitmap
  | [], p => [p]
  | q :: d, p => if p < q then p :: q :: d else if p = q then d else q :: Bitmap.toggle d p

/-- Rising indices from lo on, below size. -/
def Bitmap.wfFrom (size lo : Nat) : Bitmap → Bool
  | [] => true
  | q :: d => decide (lo ≤ q) && decide (q < size) && Bitmap.wfFrom size (q + 1) d

/-- The canonical form of a bitmap of `size` pixels. -/
def Bitmap.wf (size : Nat) (d : Bitmap) : Bool := Bitmap.wfFrom size 0 d

/-! ## Registers -/

/-- V[x] (R9, R17). No register is hard-wired. -/
def State.getV (s : State) (x : Reg) : Byte := s.v[x.toNat]'(x.isLt)

/-- V[x] <- b (R9, R17). -/
def State.setV (s : State) (x : Reg) (b : Byte) : State := { s with v := s.v.set x.toNat b x.isLt }

/-- stack[j] (R25). -/
def State.stackAt (s : State) (j : BitVec 4) : Word := s.stack[j.toNat]'(j.isLt)

/-- stack[SP] <- w; SP <- (SP + 1) mod 16 (R26, R71). -/
def State.push (s : State) (w : Word) : State :=
  { s with stack := s.stack.set s.sp.toNat w s.sp.isLt, sp := s.sp + 1 }

/-- SP <- (SP - 1) mod 16; PC <- stack[SP] (R26, R69). -/
def State.popPc (s : State) : State :=
  { s with sp := s.sp - 1, pc := s.stackAt (s.sp - 1) }

/-- PC <- target (R9). -/
def State.jump (s : State) (target : Word) : State := { s with pc := target }

/-- skip(): PC <- PC + 2, no masking (41_conditional_skips R73). -/
def State.skip (s : State) : State := { s with pc := s.pc + 2 }

/-- A skip when its condition holds (R73). -/
def State.skipIf (s : State) (c : Bool) : State := if c then s.skip else s

/-- I <- w (R23). -/
def State.setI (s : State) (w : Word) : State := { s with i := w }

/-! ## Outputs and draws -/

/-- emit E, or append a record to the diagnostic log (R10). -/
def State.emit (s : State) (o : Output) : State := { s with outputs := o :: s.outputs }

/-- One more draw has been taken (R10; log 6). -/
def State.countDraw (s : State) : State := { s with draws := s.draws + 1 }

/-- draw RandomByte(): the byte, and the state after the draw (R96). -/
def State.drawRandom (s : State) : Byte × State := (Config.randomByte s.draws, s.countDraw)

/-! ## Anomalies -/

/-- raise OutOfRange(a), or Refused(w): `faulted` is set; the caller ends the step here (60_exceptions R111, 10_state R37).
Nothing is saved and PC goes nowhere (R114). -/
def State.raise (s : State) (f : Fault) : State := { s with faulted := some f }

/-- Unmatched(w): what a word of no row, and a SYS word, does (30_encoding R61, 40_control_flow R67). -/
def State.unmatched (s : State) (w : Word) : State :=
  match s.params.unmatched with
  | .noop => s
  | .refuse => s.raise (.refused w)

/-! ## Memory accesses -/

/-- The result of an access or a run of accesses: finished with a value, or the step ended at an access that raised
OutOfRange (60_exceptions R111: what came before stands, nothing after it happens). -/
inductive Access (α : Type) where
  | done (a : α) (s : State)
  | stop (s : State)

/-- What follows the accesses, unless one of them ended the step. -/
def Access.finish {α : Type} (r : Access α) (k : α → State → State) : State :=
  match r with
  | .done a s => k a s
  | .stop s => s

/-- mem[a], for an address of the address space. -/
def State.byteAt (s : State) (a : Nat) : Byte := Memory.read s.mem a

/-- mem[a] <- b, for an address of the address space. -/
def State.setByte (s : State) (a : Nat) (b : Byte) : State := { s with mem := Memory.write s.mem a b }

/-- MemRead(a, 1) (20_memory R39, R46). -/
def State.memRead (s : State) (a : Nat) : Access Byte :=
  if a < Config.memSize then .done (s.byteAt a) s
  else
    match s.params.oorAccess with
    | .fault => .stop (s.raise (.outOfRange a))
    | .wrap => .done (s.byteAt (a % Config.memSize)) s
    | .drop => .done (Config.droppedRead s.draws) s.countDraw

/-- MemWrite(a, 1, b) (20_memory R39, R46). -/
def State.memWrite (s : State) (a : Nat) (b : Byte) : Access Unit :=
  if a < Config.memSize then .done () (s.setByte a b)
  else
    match s.params.oorAccess with
    | .fault => .stop (s.raise (.outOfRange a))
    | .wrap => .done () (s.setByte (a % Config.memSize) b)
    | .drop => .done () s

/-- MemWrite of each byte of a list at ascending addresses from a (R43; LD B, LD [I], loadProgram). -/
def storeBytes : List Byte → Nat → State → Access Unit
  | [], _, s => .done () s
  | b :: bs, a, s =>
    match s.memWrite a b with
    | .done _ s' => storeBytes bs (a + 1) s'
    | .stop s' => .stop s'

/-- V[k] <- MemRead(a + k, 1) for n registers from V[k] on, ascending (49_bcd_block R108). -/
def loadRegs (a : Nat) : (n k : Nat) → State → Access Unit
  | 0, _, s => .done () s
  | n + 1, k, s =>
    match s.memRead (a + k) with
    | .done b s' => loadRegs a n (k + 1) (s'.setV (BitVec.ofNat 4 k) b)
    | .stop s' => .stop s'

/-! ## The display adapter (60_exceptions R119) -/

/-- W * H, the number of pixels (R34). -/
def State.pixels (s : State) : Nat := Config.displayWidth * s.params.displayHeight

/-- idx(x, y): the pixel a toggle reaches (10_state R35). For a coordinate on the screen it is x + 64y under every
mapping. -/
def pixelIndex (p : Config.Params) (x y : Nat) : Nat :=
  match p.displayMap with
  | .flatModular => (x + Config.displayWidth * y) % (Config.displayWidth * p.displayHeight)
  | .adapter =>
    if x < Config.displayWidth ∧ y < p.displayHeight then x + Config.displayWidth * y
    else Config.adapterPixel p.displayHeight x y % (Config.displayWidth * p.displayHeight)

/-- DispClear: every pixel is 0 (R119). -/
def State.dispClear (s : State) : State := { s with disp := [] }.emit .dispClear

/-- DispToggle(x, y): the pixel is inverted; the answer is whether it was set (R119). -/
def State.dispToggle (s : State) (x y : Nat) : Bool × State :=
  (Bitmap.isSet s.disp (pixelIndex s.params x y),
    { s with disp := Bitmap.toggle s.disp (pixelIndex s.params x y) }.emit (.dispToggle x y))

/-- DispPresent: no change to the bitmap (R119). -/
def State.dispPresent (s : State) : State := s.emit .dispPresent

/-- One row of a sprite, from column 8 - n on: a set bit 7 - c toggles (x + c, y) (46_sprite_draw R97, R98). -/
def drawColumns (x y : Nat) (b : Byte) : (n : Nat) → Bool → State → Bool × State
  | 0, hit, s => (hit, s)
  | n + 1, hit, s =>
    if b.getLsbD n then
      drawColumns x y b n (hit || (s.dispToggle (x + (7 - n)) y).1) (s.dispToggle (x + (7 - n)) y).2
    else drawColumns x y b n hit s

/-- The rows of a sprite whose bytes stand from a on: n rows from row r on (46_sprite_draw R98). -/
def drawRows (x y a : Nat) : (n r : Nat) → Bool → State → Access Bool
  | 0, _, hit, s => .done hit s
  | n + 1, r, hit, s =>
    match s.memRead (a + r) with
    | .done b s' =>
      drawRows x y a n (r + 1) (drawColumns x (y + r) b 8 hit s').1 (drawColumns x (y + r) b 8 hit s').2
    | .stop s' => .stop s'

/-! ## The input adapter (60_exceptions R120, R121) -/

/-- keys[k]: whether key k is held (R31). -/
def State.keyHeld (s : State) (k : BitVec 4) : Bool := s.keys[k.toNat]'(k.isLt)

/-- keys[k] <- held, or not held (R126). -/
def State.setKey (s : State) (k : BitVec 4) (held : Bool) : State :=
  { s with keys := s.keys.set k.toNat held k.isLt }

/-- KeyDown(c): the adapter's answer for a code of 0 to 15, a draw above (R120, D16). It changes no state of the core; the
state returned counts the draw. -/
def State.keyDown (s : State) (c : Byte) : Bool × State :=
  if c.toNat < 16 then (s.keyHeld (BitVec.ofNat 4 c.toNat), s)
  else (Config.keyDownDraw s.draws, s.countDraw)

/-- halted <- true; keyWait <- x (47_input R102). -/
def State.waitForKey (s : State) (x : Reg) : State := { s with halted := true, keyWait := some x }

end Sys2Proof.Machine
end

