-- ==== Sys2Proof/Machine/Flags.lean ====
section
/-! DEFINITION. Every flag computation (10_state R21): carry, no borrow, the bit shifted out, collision, all written to VF
as 0 or 1 (43_arith_flags R85). -/

namespace Sys2Proof.Machine

/-- A Boolean as the flag value 1 or 0 (R85). -/
def flagOf (c : Bool) : Byte := if c then 1 else 0

/-- VF <- the flag (R18). -/
def State.setFlag (s : State) (c : Bool) : State := s.setV VF (flagOf c)

/-- The unsigned sum of two bytes exceeds 255 (R87). -/
def carries (a b : Byte) : Bool := decide (a.toNat + b.toNat > 255)

/-- a >= b: a - b needs no borrow (R88, R89). -/
def noBorrow (a b : Byte) : Bool := decide (a.toNat ≥ b.toNat)

/-- The bit SHR shifts out: bit 0 (R90). -/
def lowBit (a : Byte) : Bool := a.getLsbD 0

/-- The bit SHL shifts out: bit 7 (R91). -/
def highBit (a : Byte) : Bool := a.getLsbD 7

end Sys2Proof.Machine
end

