-- ==== Sys2Proof/Machine/Arith.lean ====
section
/-! DEFINITION. Arithmetic with flags (43_arith_flags). The flag is written first, the result last (R86, D5), which
decides the outcome where X or Y is 15. -/

namespace Sys2Proof.Machine

/-- ADD Vx, Vy (R87): the sum is computed from the operands before either write. -/
def execAddReg (x y : Reg) (s : State) : Host.Outcome State Fault Refusal :=
  .next ((s.setFlag (carries (s.getV x) (s.getV y))).setV x (s.getV x + s.getV y))

/-- V[x] <- V[a] - V[b], read from the registers as they stand (R88, R89). -/
def State.subInto (s : State) (x a b : Reg) : State := s.setV x (s.getV a - s.getV b)

/-- SUB Vx, Vy (R88): the result reads the registers after the VF write. -/
def execSubReg (x y : Reg) (s : State) : Host.Outcome State Fault Refusal :=
  .next ((s.setFlag (noBorrow (s.getV x) (s.getV y))).subInto x x y)

/-- SUBN Vx, Vy (R89). -/
def execSubn (x y : Reg) (s : State) : Host.Outcome State Fault Refusal :=
  .next ((s.setFlag (noBorrow (s.getV y) (s.getV x))).subInto x y x)

/-- V[x] <- V[x] >> 1, read as it stands (R90). -/
def State.shrInto (s : State) (x : Reg) : State := s.setV x (s.getV x >>> 1)

/-- V[x] <- (V[x] << 1) mod 256, read as it stands (R91). -/
def State.shlInto (s : State) (x : Reg) : State := s.setV x (s.getV x <<< 1)

/-- SHR Vx (R90, R92): V[X] is shifted in place; the Y field is not read. -/
def execShr (x _y : Reg) (s : State) : Host.Outcome State Fault Refusal :=
  .next ((s.setFlag (lowBit (s.getV x))).shrInto x)

/-- SHL Vx (R91, R92): V[X] is shifted in place; the Y field is not read. -/
def execShl (x _y : Reg) (s : State) : Host.Outcome State Fault Refusal :=
  .next ((s.setFlag (highBit (s.getV x))).shlInto x)

end Sys2Proof.Machine
end

