-- ==== Sys2Proof/Machine/Operands.lean ====
section
/-! DEFINITION. Every operand form (30_encoding R55): Vx and Vy are `State.getV`; an address NNN, a byte NN and a
height N are unsigned, never scaled or sign-extended. -/

namespace Sys2Proof.Machine

/-- An address operand NNN as a 16-bit value, zero-extended (R55, R70, R93). -/
def addrOperand (nnn : Addr) : Word := nnn.setWidth 16

/-- A register value as a 16-bit number (R94, R95). -/
def byteOperand (b : Byte) : Word := b.setWidth 16

/-- The low 12 bits: `& 0xFFF` (R72, R94). -/
def mask12 (w : Word) : Word := w &&& 0x0FFF#16

/-- The plain address I + 0 of a block, a natural number (20_memory R40). -/
def State.blockAddr (s : State) : Nat := s.i.toNat

/-- V0..V[X], the registers a block transfer names, ascending (49_bcd_block R107). -/
def State.regsUpTo (s : State) (x : Reg) : List Byte :=
  (List.range (x.toNat + 1)).map fun k => s.getV (BitVec.ofNat 4 k)

/-- The three decimal digits of a byte, hundreds first (49_bcd_block R106). -/
def bcdDigits (b : Byte) : List Byte :=
  [BitVec.ofNat 8 (b.toNat / 100), BitVec.ofNat 8 (b.toNat / 10 % 10), BitVec.ofNat 8 (b.toNat % 10)]

end Sys2Proof.Machine
end

