-- ==== Sys2Proof/Machine/Block.lean ====
section
/-! DEFINITION. BCD and block transfer (49_bcd_block): the addresses are I + k, not reduced; an address of 0x1000 or more
follows OOR_ACCESS (20_memory R46), and under `fault` what was written or loaded before it stands (R111). I is
unchanged (D7). -/

namespace Sys2Proof.Machine

/-- LD B, Vx (R106). -/
def execLdB (x : Reg) (s : State) : Host.Outcome State Fault Refusal :=
  .next ((storeBytes (bcdDigits (s.getV x)) s.blockAddr s).finish fun _ t => t)

/-- LD [I], Vx (R107): X + 1 bytes. -/
def execStRegs (x : Reg) (s : State) : Host.Outcome State Fault Refusal :=
  .next ((storeBytes (s.regsUpTo x) s.blockAddr s).finish fun _ t => t)

/-- LD Vx, [I] (R108): X + 1 bytes; VF is loaded where X = 15. -/
def execLdRegs (x : Reg) (s : State) : Host.Outcome State Fault Refusal :=
  .next ((loadRegs s.blockAddr (x.toNat + 1) 0 s).finish fun _ t => t)

end Sys2Proof.Machine
end

