-- ==== Sys2Proof/Machine/ControlFlow.lean ====
section
/-! DEFINITION. Control flow (40_control_flow): SYS, CLS, RET, JP, CALL, JP V0. On entry PC is the instruction's address
plus 2 (R59). -/

namespace Sys2Proof.Machine

/-- CLS (R68): DispClear, no present. -/
def execCls (s : State) : Host.Outcome State Fault Refusal := .next s.dispClear

/-- RET (R69). -/
def execRet (s : State) : Host.Outcome State Fault Refusal := .next s.popPc

/-- SYS addr (R67): exactly the effect of an unmatched word, the word being 0NNN. -/
def execSys (nnn : Addr) (s : State) : Host.Outcome State Fault Refusal := .next (s.unmatched (wordNNN 0x0#4 nnn))

/-- JP addr (R70). -/
def execJp (nnn : Addr) (s : State) : Host.Outcome State Fault Refusal := .next (s.jump (addrOperand nnn))

/-- CALL addr (R71): the pushed value is the advanced PC. -/
def execCall (nnn : Addr) (s : State) : Host.Outcome State Fault Refusal :=
  .next ((s.push s.pc).jump (addrOperand nnn))

/-- JP V0, addr (R72): the sum wraps at 12 bits. -/
def execJpV0 (nnn : Addr) (s : State) : Host.Outcome State Fault Refusal :=
  .next (s.jump (mask12 (byteOperand (s.getV 0) + addrOperand nnn)))

end Sys2Proof.Machine
end

