-- ==== Sys2Proof/Machine/Draw.lean ====
section
/-! DEFINITION. DRW (46_sprite_draw). -/

namespace Sys2Proof.Machine

/-- After the last row: VF <- collision, then DispPresent (R98, D9). -/
def finishDraw (hit : Bool) (s : State) : State := (s.setFlag hit).dispPresent

/-- DRW Vx, Vy, N (R98): V[X] and V[Y] are read once, before any write; a row at 0x1000 or above follows OOR_ACCESS, and
under `fault` ends the instruction there, VF unwritten and nothing presented (R111). -/
def execDrw (x y : Reg) (n : Nibble) (s : State) : Host.Outcome State Fault Refusal :=
  .next ((drawRows (s.getV x).toNat (s.getV y).toNat s.blockAddr n.toNat 0 false s).finish finishDraw)

end Sys2Proof.Machine
end

