-- ==== Sys2Proof/Machine/IndexOps.lean ====
section
/-! DEFINITION. Index register operations (44_index_ops): they write only I. -/

namespace Sys2Proof.Machine

/-- LD I, addr (R93). -/
def execLdI (nnn : Addr) (s : State) : Host.Outcome State Fault Refusal := .next (s.setI (addrOperand nnn))

/-- ADD I, Vx (R94): masked to 12 bits, no flag. -/
def execAddI (x : Reg) (s : State) : Host.Outcome State Fault Refusal :=
  .next (s.setI (mask12 (s.i + byteOperand (s.getV x))))

/-- LD F, Vx (R95): V[X] * 5, not masked, V[X] not checked. -/
def execLdF (x : Reg) (s : State) : Host.Outcome State Fault Refusal :=
  .next (s.setI (byteOperand (s.getV x) * 5))

end Sys2Proof.Machine
end

