-- ==== Sys2Proof/Machine/Input.lean ====
section
/-! DEFINITION. Input (47_input): SKP, SKNP, LD Vx, K. The delivery of the key is a host event (HostEvents.lean). -/

namespace Sys2Proof.Machine

/-- SKP Vx (R100): a draw for V[X] > 15. -/
def execSkp (x : Reg) (s : State) : Host.Outcome State Fault Refusal :=
  .next ((s.keyDown (s.getV x)).2.skipIf (s.keyDown (s.getV x)).1)

/-- SKNP Vx (R101). -/
def execSknp (x : Reg) (s : State) : Host.Outcome State Fault Refusal :=
  .next ((s.keyDown (s.getV x)).2.skipIf (!(s.keyDown (s.getV x)).1))

/-- LD Vx, K (R102): V[X] is written when the key is delivered (R126). -/
def execLdVxK (x : Reg) (s : State) : Host.Outcome State Fault Refusal := .next (s.waitForKey x)

end Sys2Proof.Machine
end

