-- ==== Sys2Proof/Machine/Random.lean ====
section
/-! DEFINITION. RND (45_random): the byte is a draw. -/

namespace Sys2Proof.Machine

/-- RND Vx, byte (R96): a fresh draw per execution, masked by NN. -/
def execRnd (x : Reg) (nn : Byte) (s : State) : Host.Outcome State Fault Refusal :=
  .next (s.drawRandom.2.setV x (s.drawRandom.1 &&& nn))

end Sys2Proof.Machine
end

