-- ==== Sys2Proof/Machine/TimerOps.lean ====
section
/-! DEFINITION. Timer operations (48_timer_ops). The countdown is the tick's (Tick.lean). -/

namespace Sys2Proof.Machine

/-- LD Vx, DT (R103). -/
def execLdVxDt (x : Reg) (s : State) : Host.Outcome State Fault Refusal := .next (s.setV x s.dt)

/-- LD DT, Vx (R104). -/
def execLdDt (x : Reg) (s : State) : Host.Outcome State Fault Refusal := .next { s with dt := s.getV x }

/-- LD ST, Vx (R105): no tone request. -/
def execLdSt (x : Reg) (s : State) : Host.Outcome State Fault Refusal := .next { s with st := s.getV x }

end Sys2Proof.Machine
end

