-- ==== Sys2Proof/Machine/Fetch.lean ====
section
/-! DEFINITION. The part of the step cycle before the handler (30_encoding R59): the checks in the order of 60_exceptions
R113, the fetch, the advance of PC, the decoding. -/

namespace Sys2Proof.Machine

/-- What a step has come to when the decoder has answered: an instruction to run on a state whose PC is already advanced,
or a step that is over (no-op, fetch failure, unmatched word). -/
inductive Cycle where
  | idle (s : State)
  | run (i : Instr) (s : State)

/-- PC + 1 >= 4096: the fetch fails (60_exceptions R110). -/
def State.fetchFails (s : State) : Bool := decide (s.pc.toNat + 1 ≥ Config.memSize)

/-- The two bytes at PC, in memory order (20_memory R41). -/
def State.fetchBytes (s : State) : List Byte := [s.byteAt s.pc.toNat, s.byteAt (s.pc.toNat + 1)]

/-- The word at PC, big-endian (R41). -/
def State.fetchWord (s : State) : Word := wordOfBytes (s.byteAt s.pc.toNat) (s.byteAt (s.pc.toNat + 1))

/-- fresh <- false; PC <- PC + 2 (R59, 10_state R33). -/
def State.advance (s : State) : State := { s with fresh := false, pc := s.pc + 2 }

/-- step() up to the handler (R59, R61, R110, R111). -/
def fetchDecode (s : State) : Cycle :=
  if s.faulted.isSome then .idle s
  else if s.halted then .idle s
  else if s.fetchFails then .idle (s.emit (.fetchBoundsError s.pc))
  else
    match decode s.fetchBytes with
    | .ok (i, _) => .run i s.advance
    | .error _ => .idle (s.advance.unmatched s.fetchWord)

end Sys2Proof.Machine
end

