-- ==== Sys2Proof/Machine/HostEvents.lean ====
section
/-! DEFINITION. The host's operations (60_exceptions R123 to R127, 70_reset_and_hazards R131, R134) and when they take
effect (R124). -/

namespace Sys2Proof.Machine

/-- reset() (R131). What it does not name stays: the key state and the diagnostic log (R131), the loop's clock, the pending
events, the draws and the parameters (log 16). -/
def hostReset (s : State) : State :=
  { s with
    mem := Memory.withFont s.params.font
    v := Vector.replicate 16 0
    i := 0
    pc := 0x200
    stack := Vector.replicate 16 0
    sp := 0
    dt := 0
    st := 0
    halted := false
    keyWait := none
    fresh := true
    faulted := none }.dispClear

/-- pause() (R125); nothing where the state is frozen (R111). -/
def hostPause (s : State) : State := if s.faulted.isSome then s else { s with halted := true }

/-- resume() (R125): keyWait stays pending (D15). -/
def hostResume (s : State) : State := if s.faulted.isSome then s else { s with halted := false }

/-- The delivery of key k to a pending key-wait (R126): V[x] <- k, keyWait <- none, halted <- false. -/
def deliverKey (k : BitVec 4) (s : State) : State :=
  match s.faulted, s.keyWait with
  | none, some x => { s.setV x (k.setWidth 8) with keyWait := none, halted := false }
  | _, _ => s

/-- KeyPress(k) (R126). -/
def hostKeyPress (k : BitVec 4) (s : State) : State := deliverKey k (s.setKey k true)

/-- The release of key k (R126). -/
def hostKeyRelease (k : BitVec 4) (s : State) : State := s.setKey k false

/-- loadProgram(bytes): what it returns and the state it leaves (R127, D19). A frozen state is not changed (R111; what is
returned then is log 13). -/
def hostLoad (bytes : Option (List Byte)) (s : State) : LoadResult × State :=
  match bytes.getD [] with
  | [] => (.empty, s)
  | b :: bs =>
    if s.fresh = false then (.memoryCorrupt, s)
    else if s.faulted.isSome then (.faulted, s)
    else
      match storeBytes (b :: bs) Config.programBase s with
      | .done _ s' => (.ok, { s' with fresh := false })
      | .stop s' => (.faulted, s')

/-- loadProgram() as an event: its answer goes out to the caller (R127). -/
def hostLoadProgram (bytes : Option (List Byte)) (s : State) : State :=
  (hostLoad bytes s).2.emit (.loadReturned (hostLoad bytes s).1)

/-- run(tickRateHz, instructionsPerTick): the loop starts at the beginning of a tick (R134; a second call, log 12). -/
def hostRun (rateHz perTick : Nat) (s : State) : State :=
  { s with clock := some { rateHz := rateHz, perTick := perTick, done := 0 } }

/-- One host event (R123). -/
def applyEvent (s : State) : HostEvent → State
  | .reset => hostReset s
  | .pause => hostPause s
  | .resume => hostResume s
  | .keyPress k => hostKeyPress k s
  | .keyRelease k => hostKeyRelease k s
  | .loadProgram bytes => hostLoadProgram bytes s
  | .run rateHz perTick => hostRun rateHz perTick s

/-- A list of host events, in order of arrival (R134). -/
def applyEvents (s : State) : List HostEvent → State
  | [] => s
  | e :: es => applyEvents (applyEvent s e) es

/-- Host events take effect here: between ticks where the loop runs, between steps where it does not (R124). -/
def State.atBoundary (s : State) : Bool :=
  match s.clock with
  | none => true
  | some c => c.done == 0

/-- The events that have arrived are applied, at a boundary only (R124, R134). -/
def takeEvents (s : State) : State :=
  if s.atBoundary then applyEvents { s with pending := [] } s.pending else s

end Sys2Proof.Machine
end

