-- ==== Sys2Proof/Machine/Tick.lean ====
section
/-! DEFINITION. The timers (60_exceptions R117, R118) and the place of a step in the tick loop
(70_reset_and_hazards R134). -/

namespace Sys2Proof.Machine

/-- if DT > 0: DT <- DT - 1 (R117). -/
def countDelay (s : State) : State := if s.dt = 0 then s else { s with dt := s.dt - 1 }

/-- if ST > 0: StartTone, ST <- ST - 1, and StopTone where ST has become 0 (R117, R118). -/
def countSound (s : State) : State :=
  if s.st = 0 then s
  else if s.st = 1 then ({ s with st := 0 }.emit .startTone).emit .stopTone
  else { s with st := s.st - 1 }.emit .startTone

/-- timerUpdate() (R117): nothing where the state is frozen (R111). -/
def timerUpdate (s : State) : State := if s.faulted.isSome then s else countSound (countDelay s)

/-- The batch of the tick holds a step (R134): false only where run() was called with 0 steps a tick (log 12). -/
def State.stepDue (s : State) : Bool :=
  match s.clock with
  | none => true
  | some c => c.perTick != 0

/-- Before the handler: the host events at a boundary, then step() up to the handler. -/
def beginStep (s : State) : Cycle :=
  if (takeEvents s).stepDue then fetchDecode (takeEvents s) else .idle (takeEvents s)

/-- After the step: it is counted, and the last one of the batch is followed by the timer update (R134). Where no loop
runs, step() alone is driven and no timer moves (R129). -/
def endStep (s : State) : State :=
  match s.clock with
  | none => s
  | some c =>
    if c.done + 1 < c.perTick then { s with clock := some { c with done := c.done + 1 } }
    else timerUpdate { s with clock := some { c with done := 0 } }

/-- A function applied to a next state. -/
def mapNext (f : State → State) : Host.Outcome State Fault Refusal → Host.Outcome State Fault Refusal
  | .next s => .next (f s)
  | .fault r => .fault r
  | .refused r => .refused r

/-- The word placed where the next fetch reads it: the events and flags that would keep the fetch from happening are
cleared, and a PC that cannot be fetched from becomes 0x200 (log 17). -/
def readyToFetch (s : State) : State :=
  { s with
    pending := []
    halted := false
    faulted := none
    pc := if s.fetchFails then 0x200 else s.pc
    clock := if s.stepDue then s.clock else none }

/-- Two bytes at PC and PC + 1. -/
def placeBytes (s : State) (bytes : List Byte) : State :=
  { s with mem := Memory.write (Memory.write s.mem s.pc.toNat (bytes.getD 0 0)) (s.pc.toNat + 1) (bytes.getD 1 0) }

end Sys2Proof.Machine
end

