-- ==== Sys2Proof/Machine/Step.lean ====
section
/-! DEFINITION. One step of the machine: step() of 30_encoding R59 inside the loop of 70_reset_and_hazards R134. -/

namespace Sys2Proof.Machine

/-- The handler, where the cycle has an instruction to run (R59). -/
def runCycle : Cycle → Host.Outcome State Fault Refusal
  | .idle s => .next s
  | .run i s => exec i s

/-- step() alone (R59, R129). -/
def coreStep (s : State) : Host.Outcome State Fault Refusal := runCycle (fetchDecode s)

/-- One step of the machine: the host events that take effect before it (R124), step() (R59), and the timer update where
it is the last step of the tick's batch (R134). -/
def step (s : State) : Host.Outcome State Fault Refusal := mapNext endStep (runCycle (beginStep s))

/-- The word w (bit 15 the most significant) stored where `step` fetches its next instruction. -/
def State.withFetchWord (s : State) (nbits w : Nat) : State := placeBytes (readyToFetch s) (tableBytes nbits w)

end Sys2Proof.Machine
end

