-- ==== Sys2Proof/Safety.lean ====
section
/-! DEFINITION. The terms claims are stated in: a safe state, the invariant of the machine, what an instruction may
touch and what "everything else is unchanged" means, the rows of the opcode table as the spec prints them. -/

namespace Sys2Proof.Machine

/-! ## Safe runs -/

/-- No access has gone out of range and no word has been refused (60_exceptions R111). A claim about a program's final
state asks for it: a faulted state is never a final state of a run. -/
def Safe (s : State) : Bool := s.faulted.isNone

/-- No host event is waiting and step() alone is driven (R129): a step is step() of 30_encoding R59 and nothing else. -/
def Quiet (s : State) : Prop := s.pending = [] ∧ s.clock = none

/-- step() will reach the fetch and the fetch will succeed (R113). -/
def CanFetch (s : State) : Prop := s.faulted = none ∧ s.halted = false ∧ s.pc.toNat + 1 < 4096

/-! ## The invariant -/

/-- What every step keeps: the bounds of I, PC and the stack (10_state R20, R24), the canonical forms of memory and of the
bitmap (R34, R38), a bitmap with a row, and a tick position inside its tick (R134). -/
structure Invariant (s : State) : Prop where
  memWf    : Memory.wf s.mem = true
  rows     : 0 < s.params.displayHeight
  dispWf   : Bitmap.wf s.pixels s.disp = true
  iBound   : s.i.toNat ≤ 0xFFF
  pcBound  : s.pc.toNat ≤ 0x1002
  stBound  : ∀ j, (s.stackAt j).toNat ≤ 0x1000
  tickPos  : ∀ c, s.clock = some c → c.done = 0 ∨ c.done < c.perTick

/-! ## Frames -/

/-- What an instruction may touch. Everything a field does not name is unchanged. -/
structure Touches where
  regs    : List Reg := []
  i       : Bool := false
  pc      : Bool := false
  sp      : Bool := false
  slots   : List (BitVec 4) := []   -- entries of the call stack
  dt      : Bool := false
  st      : Bool := false
  engine  : Bool := false           -- halted and keyWait
  disp    : Bool := false
  outputs : Bool := false
  draws   : Bool := false
  faulted : Bool := false
  stored  : List Nat := []          -- addresses of memory

/-- Everything outside c is in t what it is in s. No instruction touches `fresh`, the keys, the pending events, the loop's
clock or the parameters. -/
structure Frame (c : Touches) (s t : State) : Prop where
  regs    : ∀ r, r ∉ c.regs → t.getV r = s.getV r
  i       : c.i = false → t.i = s.i
  pc      : c.pc = false → t.pc = s.pc
  sp      : c.sp = false → t.sp = s.sp
  slots   : ∀ j, j ∉ c.slots → t.stackAt j = s.stackAt j
  dt      : c.dt = false → t.dt = s.dt
  st      : c.st = false → t.st = s.st
  engine  : c.engine = false → t.halted = s.halted ∧ t.keyWait = s.keyWait
  disp    : c.disp = false → t.disp = s.disp
  outputs : c.outputs = false → t.outputs = s.outputs
  draws   : c.draws = false → t.draws = s.draws
  faulted : c.faulted = false → t.faulted = s.faulted
  stored  : ∀ a, a ∉ c.stored → t.byteAt a = s.byteAt a
  fresh   : t.fresh = s.fresh
  keys    : ∀ k, t.keyHeld k = s.keyHeld k
  pending : t.pending = s.pending
  clock   : t.clock = s.clock
  params  : t.params = s.params

/-- The byte of memory a store at address a reaches, if it reaches one (20_memory R46). -/
def storeTarget (p : Config.Params) (a : Nat) : Option Nat :=
  if a < 4096 then some a
  else
    match p.oorAccess with
    | .wrap => some (a % 4096)
    | .fault => none
    | .drop => none

/-- The bytes of memory n stores at ascending addresses from a reach. -/
def storeTargets (p : Config.Params) (a n : Nat) : List Nat := ((List.range n).map (a + ·)).filterMap (storeTarget p)

/-- The first of n ascending addresses from a that is out of range (60_exceptions R113: the lowest k of a + k). -/
def firstOutOfRange (a : Nat) : Nat := max a 4096

/-- What `bytes`, written one by one at ascending addresses from a, leave (20_memory R46, 60_exceptions R111). In range each
byte is at its address. Out of range the three values of OOR_ACCESS differ. Nothing but memory and `faulted` changes,
and of memory only the bytes stored to. -/
structure StoresBlock (bytes : List Byte) (a : Nat) (s t : State) : Prop where
  inRange  : ∀ k b, bytes[k]? = some b → a + k < 4096 → t.byteAt (a + k) = b
  fault    : s.params.oorAccess = .fault →
    t.faulted = if a + bytes.length ≤ 4096 then s.faulted else some (.outOfRange (firstOutOfRange a))
  wrap     : s.params.oorAccess = .wrap →
    t.faulted = s.faulted ∧ ∀ k b, bytes[k]? = some b → t.byteAt ((a + k) % 4096) = b
  drop     : s.params.oorAccess = .drop → t.faulted = s.faulted
  frame    : Frame { faulted := true, stored := storeTargets s.params a bytes.length } s t

/-- What V[k] <- MemRead(a + k, 1) for k = 0 to x, ascending, leaves (20_memory R46, 49_bcd_block R108, 60_exceptions R111).
Under `fault` the registers from the first out-of-range address on keep their values. Under `drop` each of them is a
draw of its own. -/
structure LoadsBlock (x : Reg) (a : Nat) (s t : State) : Prop where
  inRange  : ∀ k : Reg, k.toNat ≤ x.toNat → a + k.toNat < 4096 → t.getV k = s.byteAt (a + k.toNat)
  fault    : s.params.oorAccess = .fault →
    t.draws = s.draws ∧
    t.faulted = (if a + x.toNat < 4096 then s.faulted else some (.outOfRange (firstOutOfRange a))) ∧
    ∀ k : Reg, 4096 ≤ a + k.toNat → t.getV k = s.getV k
  wrap     : s.params.oorAccess = .wrap →
    t.draws = s.draws ∧ t.faulted = s.faulted ∧
    ∀ k : Reg, k.toNat ≤ x.toNat → t.getV k = s.byteAt ((a + k.toNat) % 4096)
  drop     : s.params.oorAccess = .drop →
    t.faulted = s.faulted ∧
    t.draws = s.draws + (a + x.toNat + 1 - firstOutOfRange a) ∧
    ∀ k : Reg, k.toNat ≤ x.toNat → 4096 ≤ a + k.toNat →
      t.getV k = Config.droppedRead (s.draws + (a + k.toNat - firstOutOfRange a))
  others   : ∀ k : Reg, x.toNat < k.toNat → t.getV k = s.getV k
  frame    : Frame { regs := (List.range (x.toNat + 1)).map (BitVec.ofNat 4), draws := true, faulted := true } s t

/-! ## Sprites (46_sprite_draw R97, R98) -/

/-- The columns of the set bits of a row byte, left to right: column c is bit 7 - c. -/
def setColumns (b : Byte) : List Nat := (List.range 8).filter fun c => b.getLsbD (7 - c)

/-- The byte of row r of a sprite at address a, read in s by a step that does not fault there (20_memory R46): in range
the byte of memory; out of range, under `wrap` the byte at the address mod 4096, under `drop` a draw of its own. -/
def rowByte (s : State) (a r : Nat) : Byte :=
  if a + r < 4096 then s.byteAt (a + r)
  else
    match s.params.oorAccess with
    | .wrap => s.byteAt ((a + r) % 4096)
    | .drop => Config.droppedRead (s.draws + (a + r - firstOutOfRange a))
    | .fault => 0   -- not read: the step has ended (60_exceptions R111)

/-- The coordinates a sprite of n rows at address a toggles, drawn at (x, y), in the order of R98's loops. -/
def spritePoints (s : State) (a x y n : Nat) : List (Nat × Nat) :=
  (List.range n).flatMap fun r => (setColumns (rowByte s a r)).map fun c => (x + c, y + r)

/-- disp[p] = 1. -/
def State.pixel (s : State) (p : Nat) : Bool := Bitmap.isSet s.disp p

/-- The pixel a point reaches. -/
def State.pixelOf (s : State) (q : Nat × Nat) : Nat := pixelIndex s.params q.1 q.2

/-- An odd number of the points reaches pixel p. -/
def oddHits (s : State) (pts : List (Nat × Nat)) (p : Nat) : Bool :=
  (pts.filter fun q => s.pixelOf q == p).length % 2 == 1

/-- The points are toggled one at a time: at some point of the list the pixel was set when its turn came (R98, R99). -/
def Collides (s : State) (pts : List (Nat × Nat)) : Prop :=
  ∃ before q after, pts = before ++ q :: after ∧ (s.pixel (s.pixelOf q) ^^ oddHits s before (s.pixelOf q)) = true

/-! ## The opcode table as printed -/

/-- Every word w with (w & mask) == pattern is read as `build` of w's fields (30_encoding R54, R56). -/
def DecodesAs (mask pattern : Word) (build : Fields → Instr) : Prop :=
  ∀ w : Word, w &&& mask = pattern → decodeWord w = .ok (build (fieldsOf w))

/-! ## The tick, as 70_reset_and_hazards R134 writes it -/

/-- n calls of step() (R134). -/
def repeatSteps : Nat → State → Host.Outcome State Fault Refusal
  | 0, s => .next s
  | n + 1, s =>
    match coreStep s with
    | .next s' => repeatSteps n s'
    | .fault r => .fault r
    | .refused r => .refused r

/-- tick(): the batch, then the timer update (R134). -/
def tick (stepsPerTick : Nat) (s : State) : Host.Outcome State Fault Refusal := mapNext timerUpdate (repeatSteps stepsPerTick s)

/-- n timer updates with nothing in between. -/
def timerUpdates : Nat → State → State
  | 0, s => s
  | n + 1, s => timerUpdates n (timerUpdate s)

end Sys2Proof.Machine
end

