-- ==== Sys2Proof/Certificates/Slice0/Obligations.lean ====
section
/-! DEFINITION. The statements for the provers. Each docstring names the rules of spec/ it formalises; where a clause
rests on a choice of the model, the docstring names the log entry. -/

open Sys2Proof Sys2Proof.Machine

/-! ## Encoding -/

/-- 30_encoding R52, R54, R56 and the words of 95_test_vectors: a few words, written out bit by bit. -/
def Obligations.SpecWordsDecode : Prop :=
  decode [0x60, 0x05] = .ok (.ldByte 0 0x05, []) ∧
  decode [0x00, 0xE0] = .ok (.cls, []) ∧
  decode [0x00, 0xEE] = .ok (.ret, []) ∧
  decode [0x01, 0x23] = .ok (.sys 0x123, []) ∧
  decode [0x23, 0x00] = .ok (.call 0x300, []) ∧
  decode [0x33, 0x42] = .ok (.seByte 3 0x42, []) ∧
  decode [0x81, 0x24, 0xFF] = .ok (.addReg 1 2, [0xFF]) ∧
  decode [0xA3, 0x00] = .ok (.ldI 0x300, []) ∧
  decode [0xC3, 0x0F] = .ok (.rnd 3 0x0F, []) ∧
  decode [0xD1, 0x2F] = .ok (.drw 1 2 15, []) ∧
  decode [0xE2, 0xA1] = .ok (.sknp 2, []) ∧
  decode [0xF1, 0x07] = .ok (.ldVxDt 1, []) ∧
  decode [0xF1, 0x55] = .ok (.stRegs 1, []) ∧
  decode [0x51, 0x21] = .error (.unmatched 0x5121) ∧
  decode [0x60] = .error .truncated ∧
  fieldsOf 0xD12F = { nnn := 0x12F, nn := 0x2F, n := 0xF, x := 1, y := 2 }

/-- 30_encoding R54, R56: decoding the two bytes of a well-formed instruction gives it back and leaves what follows. -/
def Obligations.DecodeOfEncode : Prop :=
  ∀ (i : Instr) (rest : List Byte), wellFormed i = true → decode (encode i ++ rest) = .ok (i, rest)

/-- The other direction (30_encoding R56, R63): a word that decodes is the word of the instruction it decodes to, which is
well formed; so no two words decode to one instruction. -/
def Obligations.EncodeOfDecode : Prop :=
  ∀ (w : Word) (i : Instr), decodeWord w = .ok i → wellFormed i = true ∧ encodeWord i = w

/-- 30_encoding R58: the words that match no row, by major nibble, N and NN. -/
def Obligations.UnmatchedWordsByNibble : Prop :=
  ∀ (op : BitVec 4) (x y : Reg) (n : Nibble),
    (decodeWord (wordXYN op x y n) = .error (.unmatched (wordXYN op x y n)) ↔
      (op = 5 ∧ n ≠ 0) ∨ (op = 9 ∧ n ≠ 0) ∨
      (op = 8 ∧ n ∉ ([0, 1, 2, 3, 4, 5, 6, 7, 0xE] : List Nibble)) ∨
      (op = 0xE ∧ y ++ n ∉ ([0x9E, 0xA1] : List Byte)) ∨
      (op = 0xF ∧ y ++ n ∉ ([0x07, 0x0A, 0x15, 0x18, 0x1E, 0x29, 0x33, 0x55, 0x65] : List Byte)))

/-- 30_encoding R56: two rows match one word only where the later is SYS and the earlier CLS or RET. -/
def Obligations.OnlySysOverlaps : Prop :=
  ∀ (j k : Nat) (q r : OpcodeRow) (w : Word), j < k → opcodeTable[j]? = some q → opcodeTable[k]? = some r →
    rowMatches q w = true → rowMatches r w = true → k = 2

/-! ## The step cycle -/

/-- 30_encoding R59, 60_exceptions R113: step(), in the order of its checks. -/
def Obligations.StepCycle : Prop :=
  ∀ s : State,
    (s.faulted ≠ none → coreStep s = .next s) ∧
    (s.faulted = none → s.halted = true → coreStep s = .next s) ∧
    (s.faulted = none → s.halted = false → s.pc.toNat + 1 ≥ 4096 →
      coreStep s = .next { s with outputs := .fetchBoundsError s.pc :: s.outputs }) ∧
    (CanFetch s → ∀ i, decodeWord (s.byteAt s.pc.toNat ++ s.byteAt (s.pc.toNat + 1)) = .ok i →
      coreStep s = exec i { s with fresh := false, pc := s.pc + 2 }) ∧
    (CanFetch s → ∀ e, decodeWord (s.byteAt s.pc.toNat ++ s.byteAt (s.pc.toNat + 1)) = .error e →
      coreStep s = .next (State.unmatched { s with fresh := false, pc := s.pc + 2 }
        (s.byteAt s.pc.toNat ++ s.byteAt (s.pc.toNat + 1))))

/-- 30_encoding R59, 70_reset_and_hazards R134: what stands around exec in a step of the machine. The host events that take
effect now are applied first (R124), PC is advanced by 2, exec runs the instruction the two bytes at PC decode to, and the
step is counted in its tick. -/
def Obligations.StepRunsDecodedInstruction : Prop :=
  ∀ (s : State) (i : Instr) (rest : List Byte),
    (takeEvents s).stepDue = true → CanFetch (takeEvents s) →
    decode [(takeEvents s).byteAt (takeEvents s).pc.toNat, (takeEvents s).byteAt ((takeEvents s).pc.toNat + 1)]
      = .ok (i, rest) →
    step s = mapNext endStep
      (exec i { takeEvents s with fresh := false, pc := (takeEvents s).pc + 2 })

/-- 60_exceptions R129: where no event waits and no loop runs, a step of the machine is step() and no timer moves. -/
def Obligations.QuietStepIsOneStep : Prop :=
  ∀ s : State, Quiet s → step s = coreStep s

/-- 60_exceptions R109, R116: no step stops the machine, and every instruction runs in every state. -/
def Obligations.NothingStops : Prop :=
  (∀ (i : Instr) (s : State), ∃ t, exec i s = .next t) ∧ (∀ s : State, ∃ t, coreStep s = .next t) ∧
  (∀ s : State, ∃ t, step s = .next t)

/-- 30_encoding R61: an unmatched word, under both values of UNMATCHED_POLICY; under `refuse` no later step or tick changes
anything. -/
def Obligations.UnmatchedWordStep : Prop :=
  ∀ (s : State) (e : DecodeReject), CanFetch s →
    decodeWord (s.byteAt s.pc.toNat ++ s.byteAt (s.pc.toNat + 1)) = .error e →
    (s.params.unmatched = .noop → coreStep s = .next { s with fresh := false, pc := s.pc + 2 }) ∧
    (s.params.unmatched = .refuse → ∃ t, coreStep s = .next t ∧
      t = { s with
        fresh := false, pc := s.pc + 2
        faulted := some (.refused (s.byteAt s.pc.toNat ++ s.byteAt (s.pc.toNat + 1))) } ∧
      ∀ n, repeatSteps n t = .next t ∧ tick n t = .next t)

/-- 60_exceptions R110, 10_state R20: a failed fetch changes nothing but the log, n of them log n records, and the timer
update of the tick still happens. -/
def Obligations.FetchFailureIsStuck : Prop :=
  ∀ (s : State) (n : Nat), s.faulted = none → s.halted = false → s.pc.toNat + 1 ≥ 4096 →
    repeatSteps n s = .next { s with outputs := List.replicate n (.fetchBoundsError s.pc) ++ s.outputs } ∧
    tick n s = .next (timerUpdate { s with outputs := List.replicate n (.fetchBoundsError s.pc) ++ s.outputs })

/-- 60_exceptions R130, R117: while halted every step of a tick is a no-op and the timer update still runs. -/
def Obligations.HaltedTickOnlyCountsTimers : Prop :=
  ∀ (s : State) (n : Nat), s.halted = true → repeatSteps n s = .next s ∧ tick n s = .next (timerUpdate s)

/-- 60_exceptions R111: once `faulted` is set, no step, no timer update and no host event but reset() changes an element of
the state record of 10_state R14. -/
def Obligations.FaultedStateIsFrozen : Prop :=
  ∀ s : State, s.faulted ≠ none →
    (∀ n, repeatSteps n s = .next s ∧ tick n s = .next s) ∧ timerUpdate s = s ∧
    ∀ e, e ≠ HostEvent.reset →
      (applyEvent s e).mem = s.mem ∧ (applyEvent s e).v = s.v ∧ (applyEvent s e).i = s.i ∧
      (applyEvent s e).pc = s.pc ∧ (applyEvent s e).stack = s.stack ∧ (applyEvent s e).sp = s.sp ∧
      (applyEvent s e).dt = s.dt ∧ (applyEvent s e).st = s.st ∧ (applyEvent s e).halted = s.halted ∧
      (applyEvent s e).keyWait = s.keyWait ∧ (applyEvent s e).disp = s.disp ∧ (applyEvent s e).fresh = s.fresh ∧
      (applyEvent s e).faulted = s.faulted

/-! ## Control flow -/

/-- 40_control_flow R67: SYS addr is an unmatched word, whatever NNN; the words 0NNN but 00E0 and 00EE are SYS. -/
def Obligations.SysIsAnUnmatchedWord : Prop :=
  (∀ w : Word, w &&& 0xF000 = 0x0000 → w ≠ 0x00E0 → w ≠ 0x00EE → decodeWord w = .ok (.sys (fieldsOf w).nnn)) ∧
  ∀ (nnn : Addr) (s : State),
    (s.params.unmatched = .noop → exec (.sys nnn) s = .next s) ∧
    (s.params.unmatched = .refuse → exec (.sys nnn) s = .next { s with faulted := some (.refused (nnn.setWidth 16)) })

/-- 40_control_flow R68: CLS clears every pixel and emits DispClear. That it emits no DispPresent is the spec's own choice
(decision D12; log 3). -/
def Obligations.ClsClearsDisplay : Prop :=
  DecodesAs 0xFFFF 0x00E0 (fun _ => .cls) ∧
  ∀ s : State, ∃ t, exec .cls s = .next t ∧
    (∀ p, t.pixel p = false) ∧ t.outputs = .dispClear :: s.outputs ∧ Frame { disp := true, outputs := true } s t

/-- 40_control_flow R69: RET. -/
def Obligations.RetPopsPc : Prop :=
  DecodesAs 0xFFFF 0x00EE (fun _ => .ret) ∧
  ∀ s : State, ∃ t, exec .ret s = .next t ∧
    t.sp.toNat = (s.sp.toNat + 15) % 16 ∧ t.pc = s.stackAt t.sp ∧ Frame { pc := true, sp := true } s t

/-- 40_control_flow R70: JP addr. -/
def Obligations.JpSetsPc : Prop :=
  DecodesAs 0xF000 0x1000 (fun f => .jp f.nnn) ∧
  ∀ (nnn : Addr) (s : State), ∃ t, exec (.jp nnn) s = .next t ∧ t.pc.toNat = nnn.toNat ∧ Frame { pc := true } s t

/-- 40_control_flow R71: CALL addr. -/
def Obligations.CallPushesPc : Prop :=
  DecodesAs 0xF000 0x2000 (fun f => .call f.nnn) ∧
  ∀ (nnn : Addr) (s : State), ∃ t, exec (.call nnn) s = .next t ∧
    t.stackAt s.sp = s.pc ∧ t.sp.toNat = (s.sp.toNat + 1) % 16 ∧ t.pc.toNat = nnn.toNat ∧
    Frame { pc := true, sp := true, slots := [s.sp] } s t

/-- 40_control_flow R72: JP V0, addr. -/
def Obligations.JpV0AddsAndWraps : Prop :=
  DecodesAs 0xF000 0xB000 (fun f => .jpV0 f.nnn) ∧
  ∀ (nnn : Addr) (s : State), ∃ t, exec (.jpV0 nnn) s = .next t ∧
    t.pc.toNat = ((s.getV 0).toNat + nnn.toNat) % 4096 ∧ Frame { pc := true } s t

/-- 40_control_flow R71, R69: a CALL, then anything that leaves SP and the pushed slot alone, then RET: PC is the
instruction after the CALL and SP is what it was. -/
def Obligations.RetUndoesCall : Prop :=
  ∀ (nnn : Addr) (s t u : State), exec (.call nnn) s = .next t → u.sp = t.sp → u.stackAt s.sp = t.stackAt s.sp →
    ∃ r, exec .ret u = .next r ∧ r.pc = s.pc ∧ r.sp = s.sp

/-- 10_state R26, 40_control_flow R71: sixteen CALLs in a row bring SP back, the first one's slot holds its return address,
and the seventeenth overwrites that slot. The calls go to any addresses, from any PC. -/
def Obligations.SeventeenthCallOverwritesFirst : Prop :=
  ∀ (f : Nat → State) (g : Nat → Addr) (pcs : Nat → Word),
    (∀ k, exec (.call (g k)) { f k with pc := pcs k } = .next (f (k + 1))) →
    (f 16).sp = (f 0).sp ∧ (f 16).stackAt (f 0).sp = pcs 0 ∧
    (f 17).stackAt (f 0).sp = pcs 16 ∧ (f 17).sp = (f 1).sp

/-! ## Skips -/

/-- 41_conditional_skips R73 to R77: the four skips on register values. A taken skip adds 2 to PC and changes nothing else;
a skip not taken changes nothing. -/
def Obligations.RegisterSkips : Prop :=
  (DecodesAs 0xF000 0x3000 (fun f => .seByte f.x f.nn) ∧ DecodesAs 0xF000 0x4000 (fun f => .sneByte f.x f.nn) ∧
    DecodesAs 0xF00F 0x5000 (fun f => .seReg f.x f.y) ∧ DecodesAs 0xF00F 0x9000 (fun f => .sneReg f.x f.y)) ∧
  ∀ (x y : Reg) (nn : Byte) (s : State),
    exec (.seByte x nn) s = .next (if (s.getV x).toNat = nn.toNat then { s with pc := s.pc + 2 } else s) ∧
    exec (.sneByte x nn) s = .next (if (s.getV x).toNat = nn.toNat then s else { s with pc := s.pc + 2 }) ∧
    exec (.seReg x y) s = .next (if (s.getV x).toNat = (s.getV y).toNat then { s with pc := s.pc + 2 } else s) ∧
    exec (.sneReg x y) s = .next (if (s.getV x).toNat = (s.getV y).toNat then s else { s with pc := s.pc + 2 })

/-- 47_input R100, R101, 60_exceptions R120: SKP and SKNP. For a code above 15 the answer is a free value
(`Config.keyDownDraw`, log 7), and one more draw has been taken. -/
def Obligations.KeySkips : Prop :=
  (DecodesAs 0xF0FF 0xE09E (fun f => .skp f.x) ∧ DecodesAs 0xF0FF 0xE0A1 (fun f => .sknp f.x)) ∧
  ∀ (x : Reg) (s : State),
    (∀ k : BitVec 4, (s.getV x).toNat = k.toNat →
      exec (.skp x) s = .next (if s.keyHeld k then { s with pc := s.pc + 2 } else s) ∧
      exec (.sknp x) s = .next (if s.keyHeld k then s else { s with pc := s.pc + 2 })) ∧
    (15 < (s.getV x).toNat → ∃ t u, exec (.skp x) s = .next t ∧ exec (.sknp x) s = .next u ∧
      t.pc = (if Config.keyDownDraw s.draws then s.pc + 2 else s.pc) ∧ t.draws = s.draws + 1 ∧
      u.pc = (if Config.keyDownDraw s.draws then s.pc else s.pc + 2) ∧ u.draws = s.draws + 1 ∧
      Frame { pc := true, draws := true } s t ∧ Frame { pc := true, draws := true } s u)

/-! ## Registers, arithmetic, index, random, timers -/

/-- 42_register_ops R78 to R80: LD Vx, byte, ADD Vx, byte and LD Vx, Vy write V[X] and nothing else, VF only where X is
15. -/
def Obligations.LoadAndAddByte : Prop :=
  (DecodesAs 0xF000 0x6000 (fun f => .ldByte f.x f.nn) ∧ DecodesAs 0xF000 0x7000 (fun f => .addByte f.x f.nn) ∧
    DecodesAs 0xF00F 0x8000 (fun f => .ldReg f.x f.y)) ∧
  ∀ (x y : Reg) (nn : Byte) (s : State),
    (∃ t, exec (.ldByte x nn) s = .next t ∧ t.getV x = nn ∧ Frame { regs := [x] } s t) ∧
    (∃ t, exec (.addByte x nn) s = .next t ∧ (t.getV x).toNat = ((s.getV x).toNat + nn.toNat) % 256 ∧
      Frame { regs := [x] } s t) ∧
    (∃ t, exec (.ldReg x y) s = .next t ∧ t.getV x = s.getV y ∧ Frame { regs := [x] } s t)

/-- 42_register_ops R81 to R84: OR, AND, XOR bit by bit; VF keeps its value unless X is 15. -/
def Obligations.BitwiseOpsKeepVf : Prop :=
  (DecodesAs 0xF00F 0x8001 (fun f => .orReg f.x f.y) ∧ DecodesAs 0xF00F 0x8002 (fun f => .andReg f.x f.y) ∧
    DecodesAs 0xF00F 0x8003 (fun f => .xorReg f.x f.y)) ∧
  ∀ (x y : Reg) (s : State),
    (∃ t, exec (.orReg x y) s = .next t ∧ Frame { regs := [x] } s t ∧
      ∀ k, (t.getV x).getLsbD k = ((s.getV x).getLsbD k || (s.getV y).getLsbD k)) ∧
    (∃ t, exec (.andReg x y) s = .next t ∧ Frame { regs := [x] } s t ∧
      ∀ k, (t.getV x).getLsbD k = ((s.getV x).getLsbD k && (s.getV y).getLsbD k)) ∧
    (∃ t, exec (.xorReg x y) s = .next t ∧ Frame { regs := [x] } s t ∧
      ∀ k, (t.getV x).getLsbD k = ((s.getV x).getLsbD k ^^ (s.getV y).getLsbD k))

/-- 43_arith_flags R87: ADD Vx, Vy. That the sum is of the old values and that, where X is 15, the result overwrites the
carry, is the spec's own choice (R86, R87, decision D5; log 3). -/
def Obligations.AddSetsCarry : Prop :=
  DecodesAs 0xF00F 0x8004 (fun f => .addReg f.x f.y) ∧
  ∀ (x y : Reg) (s : State), ∃ t, exec (.addReg x y) s = .next t ∧
    (t.getV x).toNat = ((s.getV x).toNat + (s.getV y).toNat) % 256 ∧
    (x ≠ VF → t.getV VF = if (s.getV x).toNat + (s.getV y).toNat > 255 then 1 else 0) ∧
    Frame { regs := [x, VF] } s t

/-- 43_arith_flags R88: SUB Vx, Vy. That the flag is written first and the result reads the registers after it, so that an
operand that is VF is the flag just written, is the spec's own reading (R86, decision D5, marked derived in R88; log 3). -/
def Obligations.SubSetsNoBorrow : Prop :=
  DecodesAs 0xF00F 0x8005 (fun f => .subReg f.x f.y) ∧
  ∀ (x y : Reg) (s : State) (flag a b : Nat),
    flag = (if (s.getV x).toNat ≥ (s.getV y).toNat then 1 else 0) →
    a = (if x = VF then flag else (s.getV x).toNat) → b = (if y = VF then flag else (s.getV y).toNat) →
    ∃ t, exec (.subReg x y) s = .next t ∧ (t.getV x).toNat = (a + 256 - b) % 256 ∧
      (x ≠ VF → (t.getV VF).toNat = flag) ∧ Frame { regs := [x, VF] } s t

/-- 43_arith_flags R89: SUBN Vx, Vy. That an operand that is VF is read as the flag just written is the spec's own reading
(R86, decision D5, marked derived in R89; log 3). -/
def Obligations.SubnSetsNoBorrow : Prop :=
  DecodesAs 0xF00F 0x8007 (fun f => .subn f.x f.y) ∧
  ∀ (x y : Reg) (s : State) (flag a b : Nat),
    flag = (if (s.getV y).toNat ≥ (s.getV x).toNat then 1 else 0) →
    a = (if x = VF then flag else (s.getV x).toNat) → b = (if y = VF then flag else (s.getV y).toNat) →
    ∃ t, exec (.subn x y) s = .next t ∧ (t.getV x).toNat = (b + 256 - a) % 256 ∧
      (x ≠ VF → (t.getV VF).toNat = flag) ∧ Frame { regs := [x, VF] } s t

/-- 43_arith_flags R90 to R92: SHR and SHL. That they shift V[X] in place and do not read V[Y] is the spec's own choice
(decision D6; log 3), and the results where X is 15 are the spec's own reading (R86, decision D5, marked derived in R90 and
R91; log 3). -/
def Obligations.ShiftsInPlace : Prop :=
  (DecodesAs 0xF00F 0x8006 (fun f => .shr f.x f.y) ∧ DecodesAs 0xF00F 0x800E (fun f => .shl f.x f.y)) ∧
  ∀ (x y : Reg) (s : State),
    (∃ t, exec (.shr x y) s = .next t ∧
      (t.getV x).toNat = (if x = VF then 0 else (s.getV x).toNat / 2) ∧
      (x ≠ VF → (t.getV VF).toNat = (s.getV x).toNat % 2) ∧ Frame { regs := [x, VF] } s t) ∧
    (∃ t, exec (.shl x y) s = .next t ∧
      (t.getV x).toNat = (if x = VF then 2 * ((s.getV x).toNat / 128) else (2 * (s.getV x).toNat) % 256) ∧
      (x ≠ VF → (t.getV VF).toNat = (s.getV x).toNat / 128) ∧ Frame { regs := [x, VF] } s t)

/-- 44_index_ops R93 to R95: LD I, ADD I (12 bits, no flag), LD F (not masked). -/
def Obligations.IndexOps : Prop :=
  (DecodesAs 0xF000 0xA000 (fun f => .ldI f.nnn) ∧ DecodesAs 0xF0FF 0xF01E (fun f => .addI f.x) ∧
    DecodesAs 0xF0FF 0xF029 (fun f => .ldF f.x)) ∧
  ∀ (nnn : Addr) (x : Reg) (s : State),
    (∃ t, exec (.ldI nnn) s = .next t ∧ t.i.toNat = nnn.toNat ∧ Frame { i := true } s t) ∧
    (∃ t, exec (.addI x) s = .next t ∧ t.i.toNat = (s.i.toNat + (s.getV x).toNat) % 4096 ∧ Frame { i := true } s t) ∧
    (∃ t, exec (.ldF x) s = .next t ∧ t.i.toNat = (s.getV x).toNat * 5 ∧ Frame { i := true } s t)

/-- 45_random R96: the byte is a draw (the free value `Config.randomByte`, log 6), masked by NN; no bit is set that NN
lacks. -/
def Obligations.RndMasksADraw : Prop :=
  DecodesAs 0xF000 0xC000 (fun f => .rnd f.x f.nn) ∧
  ∀ (x : Reg) (nn : Byte) (s : State), ∃ t, exec (.rnd x nn) s = .next t ∧
    (∀ k, (t.getV x).getLsbD k = ((Config.randomByte s.draws).getLsbD k && nn.getLsbD k)) ∧
    t.draws = s.draws + 1 ∧ Frame { regs := [x], draws := true } s t

/-- 48_timer_ops R103 to R105: the timer reads and writes; no tone request. -/
def Obligations.TimerOps : Prop :=
  (DecodesAs 0xF0FF 0xF007 (fun f => .ldVxDt f.x) ∧ DecodesAs 0xF0FF 0xF015 (fun f => .ldDt f.x) ∧
    DecodesAs 0xF0FF 0xF018 (fun f => .ldSt f.x)) ∧
  ∀ (x : Reg) (s : State),
    (∃ t, exec (.ldVxDt x) s = .next t ∧ t.getV x = s.dt ∧ Frame { regs := [x] } s t) ∧
    (∃ t, exec (.ldDt x) s = .next t ∧ t.dt = s.getV x ∧ Frame { dt := true } s t) ∧
    (∃ t, exec (.ldSt x) s = .next t ∧ t.st = s.getV x ∧ Frame { st := true } s t)

/-- 47_input R102: LD Vx, K halts and registers X, replacing an earlier registration; V[X] is not written. -/
def Obligations.LdKWaitsForKey : Prop :=
  DecodesAs 0xF0FF 0xF00A (fun f => .ldVxK f.x) ∧
  ∀ (x : Reg) (s : State), ∃ t, exec (.ldVxK x) s = .next t ∧
    t.halted = true ∧ t.keyWait = some x ∧ Frame { engine := true } s t

/-! ## Memory -/

/-- 20_memory R39: a write of one byte in range, then a read of any address: the byte written there, every other byte as
before; the canonical form of memory is kept. -/
def Obligations.WriteThenRead : Prop :=
  ∀ (s : State) (a : Nat) (b : Byte), Memory.wf s.mem = true → a < 4096 →
    ∃ t, s.memWrite a b = .done () t ∧ Memory.wf t.mem = true ∧
      ∀ c, c < 4096 → t.memRead c = .done (if c = a then b else s.byteAt c) t

/-- 49_bcd_block R106: LD B, Vx, under every value of OOR_ACCESS. What a store out of range does is 20_memory R46's and
60_exceptions R111's (decision D4; log 2), and that I is unchanged is the spec's own choice (decision D7; log 3). -/
def Obligations.LdBStoresDigits : Prop :=
  DecodesAs 0xF0FF 0xF033 (fun f => .ldB f.x) ∧
  ∀ (x : Reg) (s : State), Memory.wf s.mem = true → ∃ t, exec (.ldB x) s = .next t ∧ Memory.wf t.mem = true ∧
    ∃ h d u : Byte, (s.getV x).toNat = 100 * h.toNat + 10 * d.toNat + u.toNat ∧ d.toNat < 10 ∧ u.toNat < 10 ∧
      StoresBlock [h, d, u] s.i.toNat s t

/-- 49_bcd_block R107: LD [I], Vx, under every value of OOR_ACCESS: V0..V[X] ascending. What a store out of range does is
20_memory R46's and 60_exceptions R111's (decision D4; log 2), and that I is unchanged is the spec's own choice (decision
D7; log 3). -/
def Obligations.LdIVxStoresRegisters : Prop :=
  DecodesAs 0xF0FF 0xF055 (fun f => .stRegs f.x) ∧
  ∀ (x : Reg) (s : State) (bytes : List Byte), Memory.wf s.mem = true → bytes.length = x.toNat + 1 →
    (∀ k : Reg, k.toNat ≤ x.toNat → bytes[k.toNat]? = some (s.getV k)) →
    ∃ t, exec (.stRegs x) s = .next t ∧ Memory.wf t.mem = true ∧ StoresBlock bytes s.i.toNat s t

/-- 49_bcd_block R108: LD Vx, [I], under every value of OOR_ACCESS: no register above X, I unchanged. -/
def Obligations.LdVxILoadsRegisters : Prop :=
  DecodesAs 0xF0FF 0xF065 (fun f => .ldRegs f.x) ∧
  ∀ (x : Reg) (s : State), ∃ t, exec (.ldRegs x) s = .next t ∧ LoadsBlock x s.i.toNat s t

/-- 49_bcd_block R108: LD Vx, [I] is the inverse of LD [I], Vx: in range, a store of V0..V[X] and a load from the same I
give the registers back, whatever the registers were in between. -/
def Obligations.LoadUndoesStore : Prop :=
  ∀ (x : Reg) (s t u : State), Memory.wf s.mem = true → s.i.toNat + x.toNat < 4096 →
    exec (.stRegs x) s = .next t → u.mem = t.mem → u.i = t.i →
    ∃ r, exec (.ldRegs x) u = .next r ∧ ∀ k : Reg, k.toNat ≤ x.toNat → r.getV k = s.getV k

/-- 20_memory R50, R41, 70_reset_and_hazards R137: two bytes stored by LD [I], Vx at the address of the next instruction
are the next word fetched, V0 its high byte. -/
def Obligations.StoredWordIsFetchedNext : Prop :=
  ∀ (x : Reg) (s t : State), Memory.wf s.mem = true → 1 ≤ x.toNat → s.i = s.pc → s.pc.toNat + x.toNat < 4096 →
    exec (.stRegs x) s = .next t → t.faulted = none → t.halted = false →
    ∀ i, decodeWord (s.getV 0 ++ s.getV 1) = .ok i → coreStep t = exec i { t with fresh := false, pc := t.pc + 2 }

/-! ## The display -/

/-- 46_sprite_draw R97 to R99, 60_exceptions R119: DRW whose sprite bytes are in range, or are read under `wrap` or `drop`,
on a display of any height and mapping. Each pixel is inverted as often as a set bit of the sprite reaches it; VF is 1 if
a toggle found its pixel set, else 0, also for N = 0; the requests are the toggles in the order of the loops and then
DispPresent; a byte out of range under `drop` takes a draw. -/
def Obligations.DrwTogglesSprite : Prop :=
  DecodesAs 0xF000 0xD000 (fun f => .drw f.x f.y f.n) ∧
  ∀ (x y : Reg) (n : Nibble) (s : State) (pts : List (Nat × Nat)),
    0 < s.params.displayHeight → Bitmap.wf s.pixels s.disp = true →
    (n = 0 ∨ s.i.toNat + n.toNat ≤ 4096 ∨ s.params.oorAccess ≠ .fault) →
    pts = spritePoints s s.i.toNat (s.getV x).toNat (s.getV y).toNat n.toNat →
    ∃ t, exec (.drw x y n) s = .next t ∧
      (∀ p, t.pixel p = (s.pixel p ^^ oddHits s pts p)) ∧
      (Collides s pts → t.getV VF = 1) ∧ (¬ Collides s pts → t.getV VF = 0) ∧
      t.outputs = .dispPresent :: ((pts.map fun q => Output.dispToggle q.1 q.2).reverse ++ s.outputs) ∧
      t.draws = s.draws +
        (if s.params.oorAccess = .drop then s.i.toNat + n.toNat - firstOutOfRange s.i.toNat else 0) ∧
      Bitmap.wf t.pixels t.disp = true ∧
      Frame { regs := [VF], disp := true, outputs := true, draws := true } s t

/-- 46_sprite_draw R98, 10_state R35: under flat_modular with at least 15 rows no two points of a sprite share a pixel, so
exactly the pixels of the set bits are inverted and VF is 1 exactly if one of them was set before. -/
def Obligations.DrwOnFlatScreen : Prop :=
  ∀ (x y : Reg) (n : Nibble) (s t : State) (pts : List (Nat × Nat)),
    s.params.displayMap = .flatModular → 15 ≤ s.params.displayHeight → Bitmap.wf s.pixels s.disp = true →
    (n = 0 ∨ s.i.toNat + n.toNat ≤ 4096 ∨ s.params.oorAccess ≠ .fault) →
    pts = spritePoints s s.i.toNat (s.getV x).toNat (s.getV y).toNat n.toNat →
    exec (.drw x y n) s = .next t →
    (∀ q ∈ pts, s.pixelOf q = (q.1 + 64 * q.2) % (64 * s.params.displayHeight)) ∧
    (∀ p, (∃ q ∈ pts, s.pixelOf q = p) → t.pixel p = !s.pixel p) ∧
    (∀ p, (∀ q ∈ pts, s.pixelOf q ≠ p) → t.pixel p = s.pixel p) ∧
    ((∃ q ∈ pts, s.pixel (s.pixelOf q) = true) → t.getV VF = 1) ∧
    ((∀ q ∈ pts, s.pixel (s.pixelOf q) = false) → t.getV VF = 0)

/-- 46_sprite_draw R98, "drawing the same sprite at the same location twice": under every mapping the second drawing
restores the display; with a clear background, under flat_modular with at least 15 rows, the first reports no collision
and the second does, if the sprite has a set bit. Under a mapping other than flat_modular the first part rests on the
model's choice that a point off the screen reaches one pixel, the same each time (log 5, unsafe). X or Y = 15 (the second
drawing is elsewhere) and reads under `drop` (the second sprite is another) are left to DrwTogglesSprite. -/
def Obligations.DrwTwiceRestores : Prop :=
  ∀ (x y : Reg) (n : Nibble) (s t u : State), x ≠ VF → y ≠ VF → 0 < s.params.displayHeight →
    Bitmap.wf s.pixels s.disp = true → (n = 0 ∨ s.i.toNat + n.toNat ≤ 4096 ∨ s.params.oorAccess = .wrap) →
    exec (.drw x y n) s = .next t → exec (.drw x y n) t = .next u →
    u.disp = s.disp ∧
    (s.disp = [] → s.params.displayMap = .flatModular → 15 ≤ s.params.displayHeight →
      t.getV VF = 0 ∧
      (spritePoints s s.i.toNat (s.getV x).toNat (s.getV y).toNat n.toNat ≠ [] → u.getV VF = 1))

/-- 46_sprite_draw R98, 60_exceptions R111: under OOR_ACCESS = fault a sprite whose bytes run past 0xFFF is drawn down to
its last row in range and the step ends there: the rows before are those of a DRW of m rows, no register changes, VF
included, nothing is presented, and `faulted` names the first address out of range. -/
def Obligations.DrwFaultsAtFirstRowOutside : Prop :=
  ∀ (x y : Reg) (n m : Nibble) (s : State), s.params.oorAccess = .fault → n ≠ 0 → 4096 < s.i.toNat + n.toNat →
    m.toNat = 4096 - s.i.toNat →
    ∃ t u, exec (.drw x y n) s = .next t ∧ exec (.drw x y m) s = .next u ∧
      t.disp = u.disp ∧ u.outputs = .dispPresent :: t.outputs ∧
      t.faulted = some (.outOfRange (firstOutOfRange s.i.toNat)) ∧
      Frame { disp := true, outputs := true, faulted := true } s t

/-! ## Who may write what -/

/-- 10_state R18, R21: the writers of VF as a side effect are ADD Vx, Vy, SUB, SUBN, SHR, SHL and DRW; any other instruction
that changes VF names it as its destination (X = 15). -/
def Obligations.OnlyFlagWritersTouchVf : Prop :=
  ∀ (i : Instr) (s t : State), exec i s = .next t → t.getV VF ≠ s.getV VF →
    (∃ x y, i = .addReg x y ∨ i = .subReg x y ∨ i = .subn x y ∨ i = .shr x y ∨ i = .shl x y) ∨
    (∃ x y n, i = .drw x y n) ∨
    (∃ nn, i = .ldByte VF nn ∨ i = .addByte VF nn ∨ i = .rnd VF nn) ∨
    (∃ y, i = .ldReg VF y ∨ i = .orReg VF y ∨ i = .andReg VF y ∨ i = .xorReg VF y) ∨
    i = .ldVxDt VF ∨ i = .ldRegs VF

/-- 10_state R23: I is written by LD I, ADD I and LD F alone. -/
def Obligations.OnlyIndexOpsTouchI : Prop :=
  ∀ (i : Instr) (s t : State), exec i s = .next t → t.i ≠ s.i →
    (∃ nnn, i = .ldI nnn) ∨ (∃ x, i = .addI x ∨ i = .ldF x)

/-- 10_state R25, R26: stack entries are written by CALL alone, one of them, and SP is changed by CALL and RET alone. -/
def Obligations.OnlyCallAndRetTouchStack : Prop :=
  ∀ (i : Instr) (s t : State), exec i s = .next t →
    ((∃ j, t.stackAt j ≠ s.stackAt j) → ∃ nnn, i = .call nnn) ∧
    (t.sp ≠ s.sp → i = .ret ∨ ∃ nnn, i = .call nnn)

/-- 20_memory R40: of the instructions, only LD B and LD [I] write memory. -/
def Obligations.OnlyLdBAndLdITouchMemory : Prop :=
  ∀ (i : Instr) (s t : State), exec i s = .next t → (∃ a, t.byteAt a ≠ s.byteAt a) →
    ∃ x, i = .ldB x ∨ i = .stRegs x

/-- 70_reset_and_hazards R138: within a tick's batch the timers do not count: a step() that changes DT or ST has run LD DT,
Vx or LD ST, Vx. -/
def Obligations.TimersStayWithinBatch : Prop :=
  ∀ (s t : State), coreStep s = .next t → (t.dt ≠ s.dt ∨ t.st ≠ s.st) →
    ∃ i x, decodeWord (s.byteAt s.pc.toNat ++ s.byteAt (s.pc.toNat + 1)) = .ok i ∧ (i = .ldDt x ∨ i = .ldSt x)

/-! ## Timers and the tick -/

/-- 60_exceptions R117: the timer update, in a state that is not frozen. -/
def Obligations.TimerUpdateCounts : Prop :=
  ∀ s : State, s.faulted = none →
    (timerUpdate s).dt.toNat = s.dt.toNat - 1 ∧ (timerUpdate s).st.toNat = s.st.toNat - 1 ∧
    (timerUpdate s).outputs =
      (if s.st.toNat = 0 then [] else if s.st.toNat = 1 then [.stopTone, .startTone] else [.startTone]) ++ s.outputs ∧
    Frame { dt := true, st := true, outputs := true } s (timerUpdate s)

/-- 60_exceptions R118, R117: ST = n > 0 gives n StartTone requests, one per update, then one StopTone, and the timers are
at 0 after as many updates as they held. -/
def Obligations.SoundTimerTones : Prop :=
  ∀ (s : State) (n : Nat), s.faulted = none → s.st.toNat = n → 0 < n →
    (timerUpdates n s).st = 0 ∧
    (timerUpdates n s).outputs = .stopTone :: (List.replicate n .startTone ++ s.outputs) ∧
    (∀ m, (timerUpdates m s).dt.toNat = s.dt.toNat - m)

/-- 70_reset_and_hazards R134: run()'s tick. From the start of a tick with no event waiting, as many steps of the machine as
the tick has are tick(): the batch of step() and then one timer update. -/
def Obligations.StepsOfATickAreTick : Prop :=
  ∀ (s : State) (rate n : Nat), s.pending = [] → s.clock = some { rateHz := rate, perTick := n, done := 0 } → 0 < n →
    Host.Core.run Sys2Proof.core n s = tick n s

/-! ## Reset and the host -/

/-- 70_reset_and_hazards R131: reset() from any state, halted, waiting or faulted: every element of the state record, the
one request it emits, and that the keys and the log are not changed. The spec's own choices in it: keyWait none and no tone
request (decision D14), the DispClear (D13), fresh (D19), faulted none (D4); and it takes I and SP as included, marked
derived (log 3). -/
def Obligations.ResetFromAnyState : Prop :=
  ∀ s : State,
    (∀ a b, a < 80 → s.params.font[a]? = some b → (hostReset s).byteAt a = b) ∧
    (∀ a, 80 ≤ a → a < 4096 → (hostReset s).byteAt a = 0) ∧
    (∀ r, (hostReset s).getV r = 0) ∧ (∀ j, (hostReset s).stackAt j = 0) ∧ (∀ p, (hostReset s).pixel p = false) ∧
    (hostReset s).i = 0 ∧ (hostReset s).pc = 0x200 ∧ (hostReset s).sp = 0 ∧ (hostReset s).dt = 0 ∧
    (hostReset s).st = 0 ∧ (hostReset s).halted = false ∧ (hostReset s).keyWait = none ∧
    (hostReset s).fresh = true ∧ (hostReset s).faulted = none ∧
    (hostReset s).outputs = .dispClear :: s.outputs ∧ (∀ k, (hostReset s).keyHeld k = s.keyHeld k)

/-- The state the model starts from is what reset() leaves under the default parameters (70_reset_and_hazards R131, R133),
but for what reset() keeps (log 16). -/
def Obligations.StartStateIsResetState : Prop :=
  ∀ s : State, s.params = Config.defaultParams →
    hostReset s = { State.reset with
      keys := s.keys, outputs := .dispClear :: s.outputs, pending := s.pending, clock := s.clock, draws := s.draws }

/-- The invariant holds right after reset (10_state R20, R24, R34, R38). -/
def Obligations.ResetMeetsInvariant : Prop := Invariant State.reset

/-- 10_state R20, R24: every step of the machine keeps the invariant: I below 0x1000, PC at most 0x1002, stack entries at
most 0x1000, memory and bitmap in canonical form (inside their bounds), the tick position inside its tick. -/
def Obligations.StepKeepsInvariant : Prop :=
  ∀ s t : State, Invariant s → step s = .next t → Invariant t

/-- 60_exceptions R126: KeyPress(k) and the release of k. -/
def Obligations.KeyPressDelivers : Prop :=
  ∀ (s : State) (k : BitVec 4),
    (hostKeyPress k s).keyHeld k = true ∧ (hostKeyRelease k s).keyHeld k = false ∧
    (∀ j, j ≠ k → (hostKeyPress k s).keyHeld j = s.keyHeld j ∧ (hostKeyRelease k s).keyHeld j = s.keyHeld j) ∧
    hostKeyRelease k s = { s with keys := (hostKeyRelease k s).keys } ∧
    (s.faulted ≠ none ∨ s.keyWait = none → hostKeyPress k s = { s with keys := (hostKeyPress k s).keys }) ∧
    (∀ x, s.faulted = none → s.keyWait = some x →
      ((hostKeyPress k s).getV x).toNat = k.toNat ∧ (∀ r, r ≠ x → (hostKeyPress k s).getV r = s.getV r) ∧
      hostKeyPress k s = { s with
        keys := (hostKeyPress k s).keys, v := (hostKeyPress k s).v, keyWait := none, halted := false })

/-- 60_exceptions R125: pause() and resume() flip the halt flag only and are idempotent; in a frozen state neither changes
anything (R111, decision D4; log 2). That a registration survives a resume(), and that the key delivered later still goes
to its register and ends a pause, are consequences the spec marks as derived from R125 and R126 (decision D15; log 3). -/
def Obligations.PauseAndResume : Prop :=
  ∀ s : State,
    (s.faulted ≠ none → hostPause s = s ∧ hostResume s = s) ∧
    (s.faulted = none →
      hostPause s = { s with halted := true } ∧ hostResume s = { s with halted := false } ∧
      hostPause (hostPause s) = hostPause s ∧ hostResume (hostResume s) = hostResume s ∧
      ∀ (x : Reg) (k : BitVec 4), s.keyWait = some x →
        ((hostKeyPress k (hostResume s)).getV x).toNat = k.toNat ∧
        (hostKeyPress k (hostPause s)).halted = false ∧ (hostKeyPress k (hostPause s)).keyWait = none)

/-- 60_exceptions R127: loadProgram() in a state that is not frozen: the two errors, a load that fits, and under
OOR_ACCESS = fault a load that does not (what it answers then is the model's, log 13). -/
def Obligations.LoadProgramWritesFrom200 : Prop :=
  ∀ (s : State) (bytes : List Byte), s.faulted = none → Memory.wf s.mem = true →
    hostLoad none s = (.empty, s) ∧ hostLoad (some []) s = (.empty, s) ∧
    (bytes ≠ [] → s.fresh = false → hostLoad (some bytes) s = (.memoryCorrupt, s)) ∧
    (bytes ≠ [] → s.fresh = true → bytes.length ≤ 3584 → ∃ t, hostLoad (some bytes) s = (.ok, t) ∧
      t = { s with mem := t.mem, fresh := false } ∧ Memory.wf t.mem = true ∧
      (∀ k b, bytes[k]? = some b → t.byteAt (0x200 + k) = b) ∧
      (∀ a, a < 0x200 ∨ 0x200 + bytes.length ≤ a → t.byteAt a = s.byteAt a)) ∧
    (3584 < bytes.length → s.fresh = true → s.params.oorAccess = .fault → ∃ t, (hostLoad (some bytes) s).2 = t ∧
      t = { s with mem := t.mem, faulted := some (.outOfRange 0x1000) } ∧
      (∀ k b, bytes[k]? = some b → 0x200 + k < 4096 → t.byteAt (0x200 + k) = b) ∧
      (∀ a, a < 0x200 → t.byteAt a = s.byteAt a))

/-- 70_reset_and_hazards R133, 60_exceptions R127: a program loaded after construction starts at 0x200: the first step runs
the instruction of its first two bytes, from the state of reset with the program in memory. -/
def Obligations.LoadedProgramStarts : Prop :=
  ∀ (hi lo : Byte) (rest : List Byte) (i : Instr), rest.length ≤ 3582 → decodeWord (hi ++ lo) = .ok i →
    ∃ t, hostLoad (some (hi :: lo :: rest)) State.reset = (.ok, t) ∧ t.pc = 0x200 ∧
      (∀ r, t.getV r = 0) ∧ coreStep t = exec i { t with pc := 0x202 }

/-- 60_exceptions R124, 70_reset_and_hazards R134: inside a tick no host event takes effect and none is lost; at a tick
boundary, and between steps where no loop runs, all that have arrived take effect, in order, before the step. -/
def Obligations.EventsLandBetweenTicks : Prop :=
  (∀ (s : State) (c : Clock), s.clock = some c → c.done ≠ 0 →
    takeEvents s = s ∧ ∀ t, step s = .next t → t.pending = s.pending) ∧
  (∀ (s : State) (e : HostEvent) (es : List HostEvent), s.atBoundary = true → s.pending = e :: es →
    step s = step { applyEvent { s with pending := [] } e with pending := es }) ∧
  (∀ s t : State, s.atBoundary = true → step s = .next t → t.pending = [])
end

