-- ==== Sys2Proof/Laws/Memory.lean ====
section
/-! SUPPORT. The laws of memory as data: a read after a write, and that a write keeps the canonical form. -/

namespace Sys2Proof.Machine

@[simp] theorem Memory.read_nil (a : Nat) : Memory.read [] a = Memory.unlisted a := rfl

theorem Memory.read_cons (k : Nat) (c : Byte) (m : Memory) (a : Nat) :
    Memory.read ((k, c) :: m) a = if k = a then c else Memory.read m a := rfl

/-- An address below every entry reads as unlisted. -/
theorem Memory.read_below {lo a : Nat} {m : Memory} (hw : Memory.wfFrom lo m = true) (ha : a < lo) :
    Memory.read m a = Memory.unlisted a := by
  induction m generalizing lo with
  | nil => rfl
  | cons e m ih =>
    obtain ⟨k, c⟩ := e
    simp only [Memory.wfFrom, Bool.and_eq_true, decide_eq_true_eq] at hw
    rw [Memory.read_cons, if_neg (by omega)]
    exact ih hw.2 (by omega)

theorem Memory.wfFrom_mono {lo lo' : Nat} {m : Memory} (h : lo' ≤ lo) (hw : Memory.wfFrom lo m = true) :
    Memory.wfFrom lo' m = true := by
  cases m with
  | nil => rfl
  | cons e m =>
    obtain ⟨k, c⟩ := e
    simp only [Memory.wfFrom, Bool.and_eq_true, decide_eq_true_eq] at hw ⊢
    exact ⟨⟨⟨by omega, hw.1.1.2⟩, hw.1.2⟩, hw.2⟩

/-- A write keeps the canonical form from lo on. -/
theorem Memory.write_wfFrom {lo a : Nat} {m : Memory} (b : Byte) (hw : Memory.wfFrom lo m = true) (hlo : lo ≤ a)
    (ha : a < Config.memSize) : Memory.wfFrom lo (Memory.write m a b) = true := by
  induction m generalizing lo with
  | nil =>
    unfold Memory.write
    split <;> simp_all [Memory.wfFrom]
  | cons e m ih =>
    obtain ⟨k, c⟩ := e
    have hw' := hw
    simp only [Memory.wfFrom, Bool.and_eq_true, decide_eq_true_eq] at hw'
    obtain ⟨⟨⟨h1, h2⟩, h3⟩, h4⟩ := hw'
    unfold Memory.write
    split
    · split
      · exact hw
      · simp only [Memory.wfFrom, Bool.and_eq_true, decide_eq_true_eq]
        exact ⟨⟨⟨hlo, ha⟩, by simpa using ‹¬_›⟩, ⟨⟨⟨by omega, h2⟩, h3⟩, h4⟩⟩
    · split
      · split
        · exact Memory.wfFrom_mono (by omega) h4
        · simp only [Memory.wfFrom, Bool.and_eq_true, decide_eq_true_eq]
          subst a
          exact ⟨⟨⟨hlo, ha⟩, by simpa using ‹¬_›⟩, h4⟩
      · simp only [Memory.wfFrom, Bool.and_eq_true, decide_eq_true_eq]
        exact ⟨⟨⟨h1, h2⟩, h3⟩, ih h4 (by omega)⟩

/-- A write inside the address space keeps the canonical form. -/
theorem Memory.write_wf {m : Memory} {a : Nat} (b : Byte) (hw : Memory.wf m = true) (ha : a < Config.memSize) :
    Memory.wf (Memory.write m a b) = true :=
  Memory.write_wfFrom b hw (Nat.zero_le a) ha

/-- A read after a write from lo on, in canonical form. -/
theorem Memory.read_writeFrom {lo : Nat} {m : Memory} (a c : Nat) (b : Byte) (hw : Memory.wfFrom lo m = true) :
    Memory.read (Memory.write m a b) c = if c = a then b else Memory.read m c := by
  induction m generalizing lo with
  | nil =>
    unfold Memory.write
    by_cases hca : c = a
    · rw [if_pos hca]
      split
      · rename_i hb
        rw [Memory.read_nil, hca, hb]
      · rw [Memory.read_cons, if_pos hca.symm]
    · rw [if_neg hca]
      split
      · rfl
      · rw [Memory.read_cons, if_neg (fun h => hca h.symm)]
  | cons e m ih =>
    obtain ⟨k, d⟩ := e
    have hw' := hw
    simp only [Memory.wfFrom, Bool.and_eq_true, decide_eq_true_eq] at hw'
    have h4 := hw'.2
    unfold Memory.write
    split
    · rename_i hak
      split
      · rename_i hb
        by_cases hca : c = a
        · rw [if_pos hca, Memory.read_cons, if_neg (by omega), hca, hb]
          exact Memory.read_below h4 (by omega)
        · rw [if_neg hca]
      · rw [Memory.read_cons]
        by_cases hca : c = a
        · rw [if_pos hca.symm, if_pos hca]
        · rw [if_neg (fun h => hca h.symm), if_neg hca]
    · split
      · rename_i hak
        split
        · rename_i hb
          by_cases hca : c = a
          · rw [if_pos hca, hca, hb]
            exact Memory.read_below h4 (by omega)
          · rw [if_neg hca, Memory.read_cons, if_neg (by omega)]
        · rw [Memory.read_cons, Memory.read_cons]
          by_cases hca : c = a
          · rw [if_pos hca.symm, if_pos hca]
          · rw [if_neg (fun h => hca h.symm), if_neg hca, if_neg (by omega)]
      · rename_i hne
        rw [Memory.read_cons, Memory.read_cons, ih h4]
        by_cases hkc : k = c
        · rw [if_pos hkc, if_pos hkc, if_neg (by omega)]
        · rw [if_neg hkc, if_neg hkc]

/-- A read after a write: the byte written at its address, the old byte everywhere else. -/
theorem Memory.read_write {m : Memory} (hw : Memory.wf m = true) (a c : Nat) (b : Byte) :
    Memory.read (Memory.write m a b) c = if c = a then b else Memory.read m c :=
  Memory.read_writeFrom a c b hw

/-- The memory reset() leaves, built up to address n: canonical, the font below n. -/
theorem Memory.fontUpTo_spec (font : List Byte) (n : Nat) (hn : n ≤ 80) :
    Memory.wf ((List.range n).foldl (fun m a => Memory.write m a (font.getD a 0)) []) = true ∧
      ∀ a, Memory.read ((List.range n).foldl (fun m a => Memory.write m a (font.getD a 0)) []) a =
        if a < n then font.getD a 0 else Memory.unlisted a := by
  induction n with
  | zero => exact ⟨rfl, fun _ => rfl⟩
  | succ n ih =>
    obtain ⟨h1, h2⟩ := ih (by omega)
    rw [List.range_succ, List.foldl_append]
    refine ⟨Memory.write_wf _ h1 (Nat.lt_of_lt_of_le hn (by decide)), fun a => ?_⟩
    show Memory.read (Memory.write _ n _) a = _
    rw [Memory.read_write h1, h2]
    by_cases h : a = n
    · rw [if_pos h, if_pos (by omega), h]
    · rw [if_neg h]
      by_cases h' : a < n
      · rw [if_pos h', if_pos (by omega)]
      · rw [if_neg h', if_neg (by omega)]

/-- No unlisted address above the font reads as anything but zero. -/
theorem Memory.unlisted_high {a : Nat} (h : 80 ≤ a) : Memory.unlisted a = 0 := by
  unfold Memory.unlisted
  rw [List.getD_eq_getElem?_getD, List.getElem?_eq_none (show Config.defaultFont.length ≤ a from h), Option.getD_none]

/-- The memory reset() leaves is in canonical form. -/
theorem Memory.withFont_wf (font : List Byte) : Memory.wf (Memory.withFont font) = true :=
  (Memory.fontUpTo_spec font 80 (Nat.le_refl 80)).1

/-- The memory reset() leaves: the font below 80, zero above (R131). -/
theorem Memory.read_withFont (font : List Byte) (a : Nat) :
    Memory.read (Memory.withFont font) a = if a < 80 then font.getD a 0 else 0 := by
  refine ((Memory.fontUpTo_spec font 80 (Nat.le_refl 80)).2 a).trans ?_
  by_cases h : a < 80
  · rw [if_pos h, if_pos h]
  · rw [if_neg h, if_neg h, Memory.unlisted_high (by omega)]

/-- Two memories in canonical form that read alike are equal. -/
theorem Memory.ext_from {lo lo' : Nat} {m n : Memory} (hm : Memory.wfFrom lo m = true) (hn : Memory.wfFrom lo' n = true)
    (h : ∀ a, Memory.read m a = Memory.read n a) : m = n := by
  induction m generalizing lo lo' n with
  | nil =>
    cases n with
    | nil => rfl
    | cons e n =>
      obtain ⟨k, b⟩ := e
      simp only [Memory.wfFrom, Bool.and_eq_true, bne_iff_ne, ne_eq] at hn
      have hk := h k
      rw [Memory.read_nil, Memory.read_cons, if_pos rfl] at hk
      exact absurd hk.symm hn.1.2
  | cons e m ih =>
    obtain ⟨k, b⟩ := e
    have hm' := hm
    simp only [Memory.wfFrom, Bool.and_eq_true, decide_eq_true_eq, bne_iff_ne, ne_eq] at hm
    cases n with
    | nil =>
      have hk := h k
      rw [Memory.read_nil, Memory.read_cons, if_pos rfl] at hk
      exact absurd hk hm.1.2
    | cons e n =>
      obtain ⟨l, c⟩ := e
      have hn' := hn
      simp only [Memory.wfFrom, Bool.and_eq_true, decide_eq_true_eq, bne_iff_ne, ne_eq] at hn
      have hk := h k
      have hl := h l
      rw [Memory.read_cons, if_pos rfl, Memory.read_cons] at hk
      rw [Memory.read_cons, Memory.read_cons (k := l), if_pos rfl] at hl
      have hkl : k = l := by
        rcases Nat.lt_trichotomy k l with hlt | heq | hgt
        · rw [if_neg (by omega), Memory.read_below hn.2 (by omega)] at hk
          exact absurd hk hm.1.2
        · exact heq
        · rw [if_neg (by omega), Memory.read_below hm.2 (by omega)] at hl
          exact absurd hl.symm hn.1.2
      subst hkl
      rw [if_pos rfl] at hk
      subst hk
      refine congrArg ((k, b) :: ·) (ih hm.2 hn.2 fun a => ?_)
      have ha := h a
      rw [Memory.read_cons, Memory.read_cons] at ha
      by_cases hka : k = a
      · subst hka
        rw [Memory.read_below hm.2 (Nat.lt_succ_self k), Memory.read_below hn.2 (Nat.lt_succ_self k)]
      · rwa [if_neg hka, if_neg hka] at ha

/-- Under the default font the memory reset() leaves lists nothing. -/
theorem Memory.withFont_default : Memory.withFont Config.defaultFont = [] := by
  refine Memory.ext_from (Memory.withFont_wf _) (n := []) (lo' := 0) rfl fun a => ?_
  rw [Memory.read_withFont]
  by_cases h : a < 80
  · rw [if_pos h]
    rfl
  · rw [if_neg h, Memory.read_nil, Memory.unlisted_high (by omega)]

end Sys2Proof.Machine
end

