-- ==== Sys2Proof/Laws/State.lean ====
section
/-! SUPPORT. What each update of the state does to each field and to each accessor: one lemma each, true by definition.
`toggled` names the state after `State.dispToggle`. -/

namespace Sys2Proof.Machine

variable (s : State)

/-! ## setV -/

@[simp] theorem State.setV_mem (x : Reg) (b : Byte) : (s.setV x b).mem = s.mem := rfl
@[simp] theorem State.setV_v (x : Reg) (b : Byte) : (s.setV x b).v = s.v.set x.toNat b x.isLt := rfl
@[simp] theorem State.setV_i (x : Reg) (b : Byte) : (s.setV x b).i = s.i := rfl
@[simp] theorem State.setV_pc (x : Reg) (b : Byte) : (s.setV x b).pc = s.pc := rfl
@[simp] theorem State.setV_stack (x : Reg) (b : Byte) : (s.setV x b).stack = s.stack := rfl
@[simp] theorem State.setV_sp (x : Reg) (b : Byte) : (s.setV x b).sp = s.sp := rfl
@[simp] theorem State.setV_dt (x : Reg) (b : Byte) : (s.setV x b).dt = s.dt := rfl
@[simp] theorem State.setV_st (x : Reg) (b : Byte) : (s.setV x b).st = s.st := rfl
@[simp] theorem State.setV_halted (x : Reg) (b : Byte) : (s.setV x b).halted = s.halted := rfl
@[simp] theorem State.setV_keyWait (x : Reg) (b : Byte) : (s.setV x b).keyWait = s.keyWait := rfl
@[simp] theorem State.setV_disp (x : Reg) (b : Byte) : (s.setV x b).disp = s.disp := rfl
@[simp] theorem State.setV_fresh (x : Reg) (b : Byte) : (s.setV x b).fresh = s.fresh := rfl
@[simp] theorem State.setV_faulted (x : Reg) (b : Byte) : (s.setV x b).faulted = s.faulted := rfl
@[simp] theorem State.setV_keys (x : Reg) (b : Byte) : (s.setV x b).keys = s.keys := rfl
@[simp] theorem State.setV_outputs (x : Reg) (b : Byte) : (s.setV x b).outputs = s.outputs := rfl
@[simp] theorem State.setV_pending (x : Reg) (b : Byte) : (s.setV x b).pending = s.pending := rfl
@[simp] theorem State.setV_clock (x : Reg) (b : Byte) : (s.setV x b).clock = s.clock := rfl
@[simp] theorem State.setV_draws (x : Reg) (b : Byte) : (s.setV x b).draws = s.draws := rfl
@[simp] theorem State.setV_params (x : Reg) (b : Byte) : (s.setV x b).params = s.params := rfl
@[simp] theorem State.setV_byteAt (x : Reg) (b : Byte) (a : Nat) : (s.setV x b).byteAt a = s.byteAt a := rfl
@[simp] theorem State.setV_stackAt (x : Reg) (b : Byte) (j : BitVec 4) : (s.setV x b).stackAt j = s.stackAt j := rfl
@[simp] theorem State.setV_keyHeld (x : Reg) (b : Byte) (k : BitVec 4) : (s.setV x b).keyHeld k = s.keyHeld k := rfl
@[simp] theorem State.setV_pixels (x : Reg) (b : Byte) : (s.setV x b).pixels = s.pixels := rfl

/-! ## push -/

@[simp] theorem State.push_mem (w : Word) : (s.push w).mem = s.mem := rfl
@[simp] theorem State.push_v (w : Word) : (s.push w).v = s.v := rfl
@[simp] theorem State.push_i (w : Word) : (s.push w).i = s.i := rfl
@[simp] theorem State.push_pc (w : Word) : (s.push w).pc = s.pc := rfl
@[simp] theorem State.push_stack (w : Word) : (s.push w).stack = s.stack.set s.sp.toNat w s.sp.isLt := rfl
@[simp] theorem State.push_sp (w : Word) : (s.push w).sp = s.sp + 1 := rfl
@[simp] theorem State.push_dt (w : Word) : (s.push w).dt = s.dt := rfl
@[simp] theorem State.push_st (w : Word) : (s.push w).st = s.st := rfl
@[simp] theorem State.push_halted (w : Word) : (s.push w).halted = s.halted := rfl
@[simp] theorem State.push_keyWait (w : Word) : (s.push w).keyWait = s.keyWait := rfl
@[simp] theorem State.push_disp (w : Word) : (s.push w).disp = s.disp := rfl
@[simp] theorem State.push_fresh (w : Word) : (s.push w).fresh = s.fresh := rfl
@[simp] theorem State.push_faulted (w : Word) : (s.push w).faulted = s.faulted := rfl
@[simp] theorem State.push_keys (w : Word) : (s.push w).keys = s.keys := rfl
@[simp] theorem State.push_outputs (w : Word) : (s.push w).outputs = s.outputs := rfl
@[simp] theorem State.push_pending (w : Word) : (s.push w).pending = s.pending := rfl
@[simp] theorem State.push_clock (w : Word) : (s.push w).clock = s.clock := rfl
@[simp] theorem State.push_draws (w : Word) : (s.push w).draws = s.draws := rfl
@[simp] theorem State.push_params (w : Word) : (s.push w).params = s.params := rfl
@[simp] theorem State.push_getV (w : Word) (r : Reg) : (s.push w).getV r = s.getV r := rfl
@[simp] theorem State.push_byteAt (w : Word) (a : Nat) : (s.push w).byteAt a = s.byteAt a := rfl
@[simp] theorem State.push_keyHeld (w : Word) (k : BitVec 4) : (s.push w).keyHeld k = s.keyHeld k := rfl
@[simp] theorem State.push_pixels (w : Word) : (s.push w).pixels = s.pixels := rfl

/-! ## popPc -/

@[simp] theorem State.popPc_mem : (s.popPc).mem = s.mem := rfl
@[simp] theorem State.popPc_v : (s.popPc).v = s.v := rfl
@[simp] theorem State.popPc_i : (s.popPc).i = s.i := rfl
@[simp] theorem State.popPc_pc : (s.popPc).pc = s.stackAt (s.sp - 1) := rfl
@[simp] theorem State.popPc_stack : (s.popPc).stack = s.stack := rfl
@[simp] theorem State.popPc_sp : (s.popPc).sp = s.sp - 1 := rfl
@[simp] theorem State.popPc_dt : (s.popPc).dt = s.dt := rfl
@[simp] theorem State.popPc_st : (s.popPc).st = s.st := rfl
@[simp] theorem State.popPc_halted : (s.popPc).halted = s.halted := rfl
@[simp] theorem State.popPc_keyWait : (s.popPc).keyWait = s.keyWait := rfl
@[simp] theorem State.popPc_disp : (s.popPc).disp = s.disp := rfl
@[simp] theorem State.popPc_fresh : (s.popPc).fresh = s.fresh := rfl
@[simp] theorem State.popPc_faulted : (s.popPc).faulted = s.faulted := rfl
@[simp] theorem State.popPc_keys : (s.popPc).keys = s.keys := rfl
@[simp] theorem State.popPc_outputs : (s.popPc).outputs = s.outputs := rfl
@[simp] theorem State.popPc_pending : (s.popPc).pending = s.pending := rfl
@[simp] theorem State.popPc_clock : (s.popPc).clock = s.clock := rfl
@[simp] theorem State.popPc_draws : (s.popPc).draws = s.draws := rfl
@[simp] theorem State.popPc_params : (s.popPc).params = s.params := rfl
@[simp] theorem State.popPc_getV (r : Reg) : (s.popPc).getV r = s.getV r := rfl
@[simp] theorem State.popPc_byteAt (a : Nat) : (s.popPc).byteAt a = s.byteAt a := rfl
@[simp] theorem State.popPc_stackAt (j : BitVec 4) : (s.popPc).stackAt j = s.stackAt j := rfl
@[simp] theorem State.popPc_keyHeld (k : BitVec 4) : (s.popPc).keyHeld k = s.keyHeld k := rfl
@[simp] theorem State.popPc_pixels : (s.popPc).pixels = s.pixels := rfl

/-! ## jump -/

@[simp] theorem State.jump_mem (w : Word) : (s.jump w).mem = s.mem := rfl
@[simp] theorem State.jump_v (w : Word) : (s.jump w).v = s.v := rfl
@[simp] theorem State.jump_i (w : Word) : (s.jump w).i = s.i := rfl
@[simp] theorem State.jump_pc (w : Word) : (s.jump w).pc = w := rfl
@[simp] theorem State.jump_stack (w : Word) : (s.jump w).stack = s.stack := rfl
@[simp] theorem State.jump_sp (w : Word) : (s.jump w).sp = s.sp := rfl
@[simp] theorem State.jump_dt (w : Word) : (s.jump w).dt = s.dt := rfl
@[simp] theorem State.jump_st (w : Word) : (s.jump w).st = s.st := rfl
@[simp] theorem State.jump_halted (w : Word) : (s.jump w).halted = s.halted := rfl
@[simp] theorem State.jump_keyWait (w : Word) : (s.jump w).keyWait = s.keyWait := rfl
@[simp] theorem State.jump_disp (w : Word) : (s.jump w).disp = s.disp := rfl
@[simp] theorem State.jump_fresh (w : Word) : (s.jump w).fresh = s.fresh := rfl
@[simp] theorem State.jump_faulted (w : Word) : (s.jump w).faulted = s.faulted := rfl
@[simp] theorem State.jump_keys (w : Word) : (s.jump w).keys = s.keys := rfl
@[simp] theorem State.jump_outputs (w : Word) : (s.jump w).outputs = s.outputs := rfl
@[simp] theorem State.jump_pending (w : Word) : (s.jump w).pending = s.pending := rfl
@[simp] theorem State.jump_clock (w : Word) : (s.jump w).clock = s.clock := rfl
@[simp] theorem State.jump_draws (w : Word) : (s.jump w).draws = s.draws := rfl
@[simp] theorem State.jump_params (w : Word) : (s.jump w).params = s.params := rfl
@[simp] theorem State.jump_getV (w : Word) (r : Reg) : (s.jump w).getV r = s.getV r := rfl
@[simp] theorem State.jump_byteAt (w : Word) (a : Nat) : (s.jump w).byteAt a = s.byteAt a := rfl
@[simp] theorem State.jump_stackAt (w : Word) (j : BitVec 4) : (s.jump w).stackAt j = s.stackAt j := rfl
@[simp] theorem State.jump_keyHeld (w : Word) (k : BitVec 4) : (s.jump w).keyHeld k = s.keyHeld k := rfl
@[simp] theorem State.jump_pixels (w : Word) : (s.jump w).pixels = s.pixels := rfl

/-! ## skip -/

@[simp] theorem State.skip_mem : (s.skip).mem = s.mem := rfl
@[simp] theorem State.skip_v : (s.skip).v = s.v := rfl
@[simp] theorem State.skip_i : (s.skip).i = s.i := rfl
@[simp] theorem State.skip_pc : (s.skip).pc = s.pc + 2 := rfl
@[simp] theorem State.skip_stack : (s.skip).stack = s.stack := rfl
@[simp] theorem State.skip_sp : (s.skip).sp = s.sp := rfl
@[simp] theorem State.skip_dt : (s.skip).dt = s.dt := rfl
@[simp] theorem State.skip_st : (s.skip).st = s.st := rfl
@[simp] theorem State.skip_halted : (s.skip).halted = s.halted := rfl
@[simp] theorem State.skip_keyWait : (s.skip).keyWait = s.keyWait := rfl
@[simp] theorem State.skip_disp : (s.skip).disp = s.disp := rfl
@[simp] theorem State.skip_fresh : (s.skip).fresh = s.fresh := rfl
@[simp] theorem State.skip_faulted : (s.skip).faulted = s.faulted := rfl
@[simp] theorem State.skip_keys : (s.skip).keys = s.keys := rfl
@[simp] theorem State.skip_outputs : (s.skip).outputs = s.outputs := rfl
@[simp] theorem State.skip_pending : (s.skip).pending = s.pending := rfl
@[simp] theorem State.skip_clock : (s.skip).clock = s.clock := rfl
@[simp] theorem State.skip_draws : (s.skip).draws = s.draws := rfl
@[simp] theorem State.skip_params : (s.skip).params = s.params := rfl
@[simp] theorem State.skip_getV (r : Reg) : (s.skip).getV r = s.getV r := rfl
@[simp] theorem State.skip_byteAt (a : Nat) : (s.skip).byteAt a = s.byteAt a := rfl
@[simp] theorem State.skip_stackAt (j : BitVec 4) : (s.skip).stackAt j = s.stackAt j := rfl
@[simp] theorem State.skip_keyHeld (k : BitVec 4) : (s.skip).keyHeld k = s.keyHeld k := rfl
@[simp] theorem State.skip_pixels : (s.skip).pixels = s.pixels := rfl

/-! ## setI -/

@[simp] theorem State.setI_mem (w : Word) : (s.setI w).mem = s.mem := rfl
@[simp] theorem State.setI_v (w : Word) : (s.setI w).v = s.v := rfl
@[simp] theorem State.setI_i (w : Word) : (s.setI w).i = w := rfl
@[simp] theorem State.setI_pc (w : Word) : (s.setI w).pc = s.pc := rfl
@[simp] theorem State.setI_stack (w : Word) : (s.setI w).stack = s.stack := rfl
@[simp] theorem State.setI_sp (w : Word) : (s.setI w).sp = s.sp := rfl
@[simp] theorem State.setI_dt (w : Word) : (s.setI w).dt = s.dt := rfl
@[simp] theorem State.setI_st (w : Word) : (s.setI w).st = s.st := rfl
@[simp] theorem State.setI_halted (w : Word) : (s.setI w).halted = s.halted := rfl
@[simp] theorem State.setI_keyWait (w : Word) : (s.setI w).keyWait = s.keyWait := rfl
@[simp] theorem State.setI_disp (w : Word) : (s.setI w).disp = s.disp := rfl
@[simp] theorem State.setI_fresh (w : Word) : (s.setI w).fresh = s.fresh := rfl
@[simp] theorem State.setI_faulted (w : Word) : (s.setI w).faulted = s.faulted := rfl
@[simp] theorem State.setI_keys (w : Word) : (s.setI w).keys = s.keys := rfl
@[simp] theorem State.setI_outputs (w : Word) : (s.setI w).outputs = s.outputs := rfl
@[simp] theorem State.setI_pending (w : Word) : (s.setI w).pending = s.pending := rfl
@[simp] theorem State.setI_clock (w : Word) : (s.setI w).clock = s.clock := rfl
@[simp] theorem State.setI_draws (w : Word) : (s.setI w).draws = s.draws := rfl
@[simp] theorem State.setI_params (w : Word) : (s.setI w).params = s.params := rfl
@[simp] theorem State.setI_getV (w : Word) (r : Reg) : (s.setI w).getV r = s.getV r := rfl
@[simp] theorem State.setI_byteAt (w : Word) (a : Nat) : (s.setI w).byteAt a = s.byteAt a := rfl
@[simp] theorem State.setI_stackAt (w : Word) (j : BitVec 4) : (s.setI w).stackAt j = s.stackAt j := rfl
@[simp] theorem State.setI_keyHeld (w : Word) (k : BitVec 4) : (s.setI w).keyHeld k = s.keyHeld k := rfl
@[simp] theorem State.setI_pixels (w : Word) : (s.setI w).pixels = s.pixels := rfl

/-! ## emit -/

@[simp] theorem State.emit_mem (o : Output) : (s.emit o).mem = s.mem := rfl
@[simp] theorem State.emit_v (o : Output) : (s.emit o).v = s.v := rfl
@[simp] theorem State.emit_i (o : Output) : (s.emit o).i = s.i := rfl
@[simp] theorem State.emit_pc (o : Output) : (s.emit o).pc = s.pc := rfl
@[simp] theorem State.emit_stack (o : Output) : (s.emit o).stack = s.stack := rfl
@[simp] theorem State.emit_sp (o : Output) : (s.emit o).sp = s.sp := rfl
@[simp] theorem State.emit_dt (o : Output) : (s.emit o).dt = s.dt := rfl
@[simp] theorem State.emit_st (o : Output) : (s.emit o).st = s.st := rfl
@[simp] theorem State.emit_halted (o : Output) : (s.emit o).halted = s.halted := rfl
@[simp] theorem State.emit_keyWait (o : Output) : (s.emit o).keyWait = s.keyWait := rfl
@[simp] theorem State.emit_disp (o : Output) : (s.emit o).disp = s.disp := rfl
@[simp] theorem State.emit_fresh (o : Output) : (s.emit o).fresh = s.fresh := rfl
@[simp] theorem State.emit_faulted (o : Output) : (s.emit o).faulted = s.faulted := rfl
@[simp] theorem State.emit_keys (o : Output) : (s.emit o).keys = s.keys := rfl
@[simp] theorem State.emit_outputs (o : Output) : (s.emit o).outputs = o :: s.outputs := rfl
@[simp] theorem State.emit_pending (o : Output) : (s.emit o).pending = s.pending := rfl
@[simp] theorem State.emit_clock (o : Output) : (s.emit o).clock = s.clock := rfl
@[simp] theorem State.emit_draws (o : Output) : (s.emit o).draws = s.draws := rfl
@[simp] theorem State.emit_params (o : Output) : (s.emit o).params = s.params := rfl
@[simp] theorem State.emit_getV (o : Output) (r : Reg) : (s.emit o).getV r = s.getV r := rfl
@[simp] theorem State.emit_byteAt (o : Output) (a : Nat) : (s.emit o).byteAt a = s.byteAt a := rfl
@[simp] theorem State.emit_stackAt (o : Output) (j : BitVec 4) : (s.emit o).stackAt j = s.stackAt j := rfl
@[simp] theorem State.emit_keyHeld (o : Output) (k : BitVec 4) : (s.emit o).keyHeld k = s.keyHeld k := rfl
@[simp] theorem State.emit_pixels (o : Output) : (s.emit o).pixels = s.pixels := rfl

/-! ## countDraw -/

@[simp] theorem State.countDraw_mem : (s.countDraw).mem = s.mem := rfl
@[simp] theorem State.countDraw_v : (s.countDraw).v = s.v := rfl
@[simp] theorem State.countDraw_i : (s.countDraw).i = s.i := rfl
@[simp] theorem State.countDraw_pc : (s.countDraw).pc = s.pc := rfl
@[simp] theorem State.countDraw_stack : (s.countDraw).stack = s.stack := rfl
@[simp] theorem State.countDraw_sp : (s.countDraw).sp = s.sp := rfl
@[simp] theorem State.countDraw_dt : (s.countDraw).dt = s.dt := rfl
@[simp] theorem State.countDraw_st : (s.countDraw).st = s.st := rfl
@[simp] theorem State.countDraw_halted : (s.countDraw).halted = s.halted := rfl
@[simp] theorem State.countDraw_keyWait : (s.countDraw).keyWait = s.keyWait := rfl
@[simp] theorem State.countDraw_disp : (s.countDraw).disp = s.disp := rfl
@[simp] theorem State.countDraw_fresh : (s.countDraw).fresh = s.fresh := rfl
@[simp] theorem State.countDraw_faulted : (s.countDraw).faulted = s.faulted := rfl
@[simp] theorem State.countDraw_keys : (s.countDraw).keys = s.keys := rfl
@[simp] theorem State.countDraw_outputs : (s.countDraw).outputs = s.outputs := rfl
@[simp] theorem State.countDraw_pending : (s.countDraw).pending = s.pending := rfl
@[simp] theorem State.countDraw_clock : (s.countDraw).clock = s.clock := rfl
@[simp] theorem State.countDraw_draws : (s.countDraw).draws = s.draws + 1 := rfl
@[simp] theorem State.countDraw_params : (s.countDraw).params = s.params := rfl
@[simp] theorem State.countDraw_getV (r : Reg) : (s.countDraw).getV r = s.getV r := rfl
@[simp] theorem State.countDraw_byteAt (a : Nat) : (s.countDraw).byteAt a = s.byteAt a := rfl
@[simp] theorem State.countDraw_stackAt (j : BitVec 4) : (s.countDraw).stackAt j = s.stackAt j := rfl
@[simp] theorem State.countDraw_keyHeld (k : BitVec 4) : (s.countDraw).keyHeld k = s.keyHeld k := rfl
@[simp] theorem State.countDraw_pixels : (s.countDraw).pixels = s.pixels := rfl

/-! ## raise -/

@[simp] theorem State.raise_mem (f : Fault) : (s.raise f).mem = s.mem := rfl
@[simp] theorem State.raise_v (f : Fault) : (s.raise f).v = s.v := rfl
@[simp] theorem State.raise_i (f : Fault) : (s.raise f).i = s.i := rfl
@[simp] theorem State.raise_pc (f : Fault) : (s.raise f).pc = s.pc := rfl
@[simp] theorem State.raise_stack (f : Fault) : (s.raise f).stack = s.stack := rfl
@[simp] theorem State.raise_sp (f : Fault) : (s.raise f).sp = s.sp := rfl
@[simp] theorem State.raise_dt (f : Fault) : (s.raise f).dt = s.dt := rfl
@[simp] theorem State.raise_st (f : Fault) : (s.raise f).st = s.st := rfl
@[simp] theorem State.raise_halted (f : Fault) : (s.raise f).halted = s.halted := rfl
@[simp] theorem State.raise_keyWait (f : Fault) : (s.raise f).keyWait = s.keyWait := rfl
@[simp] theorem State.raise_disp (f : Fault) : (s.raise f).disp = s.disp := rfl
@[simp] theorem State.raise_fresh (f : Fault) : (s.raise f).fresh = s.fresh := rfl
@[simp] theorem State.raise_faulted (f : Fault) : (s.raise f).faulted = some f := rfl
@[simp] theorem State.raise_keys (f : Fault) : (s.raise f).keys = s.keys := rfl
@[simp] theorem State.raise_outputs (f : Fault) : (s.raise f).outputs = s.outputs := rfl
@[simp] theorem State.raise_pending (f : Fault) : (s.raise f).pending = s.pending := rfl
@[simp] theorem State.raise_clock (f : Fault) : (s.raise f).clock = s.clock := rfl
@[simp] theorem State.raise_draws (f : Fault) : (s.raise f).draws = s.draws := rfl
@[simp] theorem State.raise_params (f : Fault) : (s.raise f).params = s.params := rfl
@[simp] theorem State.raise_getV (f : Fault) (r : Reg) : (s.raise f).getV r = s.getV r := rfl
@[simp] theorem State.raise_byteAt (f : Fault) (a : Nat) : (s.raise f).byteAt a = s.byteAt a := rfl
@[simp] theorem State.raise_stackAt (f : Fault) (j : BitVec 4) : (s.raise f).stackAt j = s.stackAt j := rfl
@[simp] theorem State.raise_keyHeld (f : Fault) (k : BitVec 4) : (s.raise f).keyHeld k = s.keyHeld k := rfl
@[simp] theorem State.raise_pixels (f : Fault) : (s.raise f).pixels = s.pixels := rfl

/-! ## setByte -/

@[simp] theorem State.setByte_mem (b : Nat) (c : Byte) : (s.setByte b c).mem = Memory.write s.mem b c := rfl
@[simp] theorem State.setByte_v (b : Nat) (c : Byte) : (s.setByte b c).v = s.v := rfl
@[simp] theorem State.setByte_i (b : Nat) (c : Byte) : (s.setByte b c).i = s.i := rfl
@[simp] theorem State.setByte_pc (b : Nat) (c : Byte) : (s.setByte b c).pc = s.pc := rfl
@[simp] theorem State.setByte_stack (b : Nat) (c : Byte) : (s.setByte b c).stack = s.stack := rfl
@[simp] theorem State.setByte_sp (b : Nat) (c : Byte) : (s.setByte b c).sp = s.sp := rfl
@[simp] theorem State.setByte_dt (b : Nat) (c : Byte) : (s.setByte b c).dt = s.dt := rfl
@[simp] theorem State.setByte_st (b : Nat) (c : Byte) : (s.setByte b c).st = s.st := rfl
@[simp] theorem State.setByte_halted (b : Nat) (c : Byte) : (s.setByte b c).halted = s.halted := rfl
@[simp] theorem State.setByte_keyWait (b : Nat) (c : Byte) : (s.setByte b c).keyWait = s.keyWait := rfl
@[simp] theorem State.setByte_disp (b : Nat) (c : Byte) : (s.setByte b c).disp = s.disp := rfl
@[simp] theorem State.setByte_fresh (b : Nat) (c : Byte) : (s.setByte b c).fresh = s.fresh := rfl
@[simp] theorem State.setByte_faulted (b : Nat) (c : Byte) : (s.setByte b c).faulted = s.faulted := rfl
@[simp] theorem State.setByte_keys (b : Nat) (c : Byte) : (s.setByte b c).keys = s.keys := rfl
@[simp] theorem State.setByte_outputs (b : Nat) (c : Byte) : (s.setByte b c).outputs = s.outputs := rfl
@[simp] theorem State.setByte_pending (b : Nat) (c : Byte) : (s.setByte b c).pending = s.pending := rfl
@[simp] theorem State.setByte_clock (b : Nat) (c : Byte) : (s.setByte b c).clock = s.clock := rfl
@[simp] theorem State.setByte_draws (b : Nat) (c : Byte) : (s.setByte b c).draws = s.draws := rfl
@[simp] theorem State.setByte_params (b : Nat) (c : Byte) : (s.setByte b c).params = s.params := rfl
@[simp] theorem State.setByte_getV (b : Nat) (c : Byte) (r : Reg) : (s.setByte b c).getV r = s.getV r := rfl
@[simp] theorem State.setByte_stackAt (b : Nat) (c : Byte) (j : BitVec 4) : (s.setByte b c).stackAt j = s.stackAt j := rfl
@[simp] theorem State.setByte_keyHeld (b : Nat) (c : Byte) (k : BitVec 4) : (s.setByte b c).keyHeld k = s.keyHeld k := rfl
@[simp] theorem State.setByte_pixels (b : Nat) (c : Byte) : (s.setByte b c).pixels = s.pixels := rfl

/-! ## dispClear -/

@[simp] theorem State.dispClear_mem : (s.dispClear).mem = s.mem := rfl
@[simp] theorem State.dispClear_v : (s.dispClear).v = s.v := rfl
@[simp] theorem State.dispClear_i : (s.dispClear).i = s.i := rfl
@[simp] theorem State.dispClear_pc : (s.dispClear).pc = s.pc := rfl
@[simp] theorem State.dispClear_stack : (s.dispClear).stack = s.stack := rfl
@[simp] theorem State.dispClear_sp : (s.dispClear).sp = s.sp := rfl
@[simp] theorem State.dispClear_dt : (s.dispClear).dt = s.dt := rfl
@[simp] theorem State.dispClear_st : (s.dispClear).st = s.st := rfl
@[simp] theorem State.dispClear_halted : (s.dispClear).halted = s.halted := rfl
@[simp] theorem State.dispClear_keyWait : (s.dispClear).keyWait = s.keyWait := rfl
@[simp] theorem State.dispClear_disp : (s.dispClear).disp = [] := rfl
@[simp] theorem State.dispClear_fresh : (s.dispClear).fresh = s.fresh := rfl
@[simp] theorem State.dispClear_faulted : (s.dispClear).faulted = s.faulted := rfl
@[simp] theorem State.dispClear_keys : (s.dispClear).keys = s.keys := rfl
@[simp] theorem State.dispClear_outputs : (s.dispClear).outputs = .dispClear :: s.outputs := rfl
@[simp] theorem State.dispClear_pending : (s.dispClear).pending = s.pending := rfl
@[simp] theorem State.dispClear_clock : (s.dispClear).clock = s.clock := rfl
@[simp] theorem State.dispClear_draws : (s.dispClear).draws = s.draws := rfl
@[simp] theorem State.dispClear_params : (s.dispClear).params = s.params := rfl
@[simp] theorem State.dispClear_getV (r : Reg) : (s.dispClear).getV r = s.getV r := rfl
@[simp] theorem State.dispClear_byteAt (a : Nat) : (s.dispClear).byteAt a = s.byteAt a := rfl
@[simp] theorem State.dispClear_stackAt (j : BitVec 4) : (s.dispClear).stackAt j = s.stackAt j := rfl
@[simp] theorem State.dispClear_keyHeld (k : BitVec 4) : (s.dispClear).keyHeld k = s.keyHeld k := rfl
@[simp] theorem State.dispClear_pixels : (s.dispClear).pixels = s.pixels := rfl

/-! ## dispPresent -/

@[simp] theorem State.dispPresent_mem : (s.dispPresent).mem = s.mem := rfl
@[simp] theorem State.dispPresent_v : (s.dispPresent).v = s.v := rfl
@[simp] theorem State.dispPresent_i : (s.dispPresent).i = s.i := rfl
@[simp] theorem State.dispPresent_pc : (s.dispPresent).pc = s.pc := rfl
@[simp] theorem State.dispPresent_stack : (s.dispPresent).stack = s.stack := rfl
@[simp] theorem State.dispPresent_sp : (s.dispPresent).sp = s.sp := rfl
@[simp] theorem State.dispPresent_dt : (s.dispPresent).dt = s.dt := rfl
@[simp] theorem State.dispPresent_st : (s.dispPresent).st = s.st := rfl
@[simp] theorem State.dispPresent_halted : (s.dispPresent).halted = s.halted := rfl
@[simp] theorem State.dispPresent_keyWait : (s.dispPresent).keyWait = s.keyWait := rfl
@[simp] theorem State.dispPresent_disp : (s.dispPresent).disp = s.disp := rfl
@[simp] theorem State.dispPresent_fresh : (s.dispPresent).fresh = s.fresh := rfl
@[simp] theorem State.dispPresent_faulted : (s.dispPresent).faulted = s.faulted := rfl
@[simp] theorem State.dispPresent_keys : (s.dispPresent).keys = s.keys := rfl
@[simp] theorem State.dispPresent_outputs : (s.dispPresent).outputs = .dispPresent :: s.outputs := rfl
@[simp] theorem State.dispPresent_pending : (s.dispPresent).pending = s.pending := rfl
@[simp] theorem State.dispPresent_clock : (s.dispPresent).clock = s.clock := rfl
@[simp] theorem State.dispPresent_draws : (s.dispPresent).draws = s.draws := rfl
@[simp] theorem State.dispPresent_params : (s.dispPresent).params = s.params := rfl
@[simp] theorem State.dispPresent_getV (r : Reg) : (s.dispPresent).getV r = s.getV r := rfl
@[simp] theorem State.dispPresent_byteAt (a : Nat) : (s.dispPresent).byteAt a = s.byteAt a := rfl
@[simp] theorem State.dispPresent_stackAt (j : BitVec 4) : (s.dispPresent).stackAt j = s.stackAt j := rfl
@[simp] theorem State.dispPresent_keyHeld (k : BitVec 4) : (s.dispPresent).keyHeld k = s.keyHeld k := rfl
@[simp] theorem State.dispPresent_pixels : (s.dispPresent).pixels = s.pixels := rfl

/-! ## waitForKey -/

@[simp] theorem State.waitForKey_mem (x : Reg) : (s.waitForKey x).mem = s.mem := rfl
@[simp] theorem State.waitForKey_v (x : Reg) : (s.waitForKey x).v = s.v := rfl
@[simp] theorem State.waitForKey_i (x : Reg) : (s.waitForKey x).i = s.i := rfl
@[simp] theorem State.waitForKey_pc (x : Reg) : (s.waitForKey x).pc = s.pc := rfl
@[simp] theorem State.waitForKey_stack (x : Reg) : (s.waitForKey x).stack = s.stack := rfl
@[simp] theorem State.waitForKey_sp (x : Reg) : (s.waitForKey x).sp = s.sp := rfl
@[simp] theorem State.waitForKey_dt (x : Reg) : (s.waitForKey x).dt = s.dt := rfl
@[simp] theorem State.waitForKey_st (x : Reg) : (s.waitForKey x).st = s.st := rfl
@[simp] theorem State.waitForKey_halted (x : Reg) : (s.waitForKey x).halted = true := rfl
@[simp] theorem State.waitForKey_keyWait (x : Reg) : (s.waitForKey x).keyWait = some x := rfl
@[simp] theorem State.waitForKey_disp (x : Reg) : (s.waitForKey x).disp = s.disp := rfl
@[simp] theorem State.waitForKey_fresh (x : Reg) : (s.waitForKey x).fresh = s.fresh := rfl
@[simp] theorem State.waitForKey_faulted (x : Reg) : (s.waitForKey x).faulted = s.faulted := rfl
@[simp] theorem State.waitForKey_keys (x : Reg) : (s.waitForKey x).keys = s.keys := rfl
@[simp] theorem State.waitForKey_outputs (x : Reg) : (s.waitForKey x).outputs = s.outputs := rfl
@[simp] theorem State.waitForKey_pending (x : Reg) : (s.waitForKey x).pending = s.pending := rfl
@[simp] theorem State.waitForKey_clock (x : Reg) : (s.waitForKey x).clock = s.clock := rfl
@[simp] theorem State.waitForKey_draws (x : Reg) : (s.waitForKey x).draws = s.draws := rfl
@[simp] theorem State.waitForKey_params (x : Reg) : (s.waitForKey x).params = s.params := rfl
@[simp] theorem State.waitForKey_getV (x : Reg) (r : Reg) : (s.waitForKey x).getV r = s.getV r := rfl
@[simp] theorem State.waitForKey_byteAt (x : Reg) (a : Nat) : (s.waitForKey x).byteAt a = s.byteAt a := rfl
@[simp] theorem State.waitForKey_stackAt (x : Reg) (j : BitVec 4) : (s.waitForKey x).stackAt j = s.stackAt j := rfl
@[simp] theorem State.waitForKey_keyHeld (x : Reg) (k : BitVec 4) : (s.waitForKey x).keyHeld k = s.keyHeld k := rfl
@[simp] theorem State.waitForKey_pixels (x : Reg) : (s.waitForKey x).pixels = s.pixels := rfl

/-! ## setKey -/

@[simp] theorem State.setKey_mem (c : BitVec 4) (h : Bool) : (s.setKey c h).mem = s.mem := rfl
@[simp] theorem State.setKey_v (c : BitVec 4) (h : Bool) : (s.setKey c h).v = s.v := rfl
@[simp] theorem State.setKey_i (c : BitVec 4) (h : Bool) : (s.setKey c h).i = s.i := rfl
@[simp] theorem State.setKey_pc (c : BitVec 4) (h : Bool) : (s.setKey c h).pc = s.pc := rfl
@[simp] theorem State.setKey_stack (c : BitVec 4) (h : Bool) : (s.setKey c h).stack = s.stack := rfl
@[simp] theorem State.setKey_sp (c : BitVec 4) (h : Bool) : (s.setKey c h).sp = s.sp := rfl
@[simp] theorem State.setKey_dt (c : BitVec 4) (h : Bool) : (s.setKey c h).dt = s.dt := rfl
@[simp] theorem State.setKey_st (c : BitVec 4) (h : Bool) : (s.setKey c h).st = s.st := rfl
@[simp] theorem State.setKey_halted (c : BitVec 4) (h : Bool) : (s.setKey c h).halted = s.halted := rfl
@[simp] theorem State.setKey_keyWait (c : BitVec 4) (h : Bool) : (s.setKey c h).keyWait = s.keyWait := rfl
@[simp] theorem State.setKey_disp (c : BitVec 4) (h : Bool) : (s.setKey c h).disp = s.disp := rfl
@[simp] theorem State.setKey_fresh (c : BitVec 4) (h : Bool) : (s.setKey c h).fresh = s.fresh := rfl
@[simp] theorem State.setKey_faulted (c : BitVec 4) (h : Bool) : (s.setKey c h).faulted = s.faulted := rfl
@[simp] theorem State.setKey_keys (c : BitVec 4) (h : Bool) : (s.setKey c h).keys = s.keys.set c.toNat h c.isLt := rfl
@[simp] theorem State.setKey_outputs (c : BitVec 4) (h : Bool) : (s.setKey c h).outputs = s.outputs := rfl
@[simp] theorem State.setKey_pending (c : BitVec 4) (h : Bool) : (s.setKey c h).pending = s.pending := rfl
@[simp] theorem State.setKey_clock (c : BitVec 4) (h : Bool) : (s.setKey c h).clock = s.clock := rfl
@[simp] theorem State.setKey_draws (c : BitVec 4) (h : Bool) : (s.setKey c h).draws = s.draws := rfl
@[simp] theorem State.setKey_params (c : BitVec 4) (h : Bool) : (s.setKey c h).params = s.params := rfl
@[simp] theorem State.setKey_getV (c : BitVec 4) (h : Bool) (r : Reg) : (s.setKey c h).getV r = s.getV r := rfl
@[simp] theorem State.setKey_byteAt (c : BitVec 4) (h : Bool) (a : Nat) : (s.setKey c h).byteAt a = s.byteAt a := rfl
@[simp] theorem State.setKey_stackAt (c : BitVec 4) (h : Bool) (j : BitVec 4) : (s.setKey c h).stackAt j = s.stackAt j := rfl
@[simp] theorem State.setKey_pixels (c : BitVec 4) (h : Bool) : (s.setKey c h).pixels = s.pixels := rfl

/-! ## toggled -/

@[simp] theorem State.toggled_mem (x y : Nat) : (s.dispToggle x y).2.mem = s.mem := rfl
@[simp] theorem State.toggled_v (x y : Nat) : (s.dispToggle x y).2.v = s.v := rfl
@[simp] theorem State.toggled_i (x y : Nat) : (s.dispToggle x y).2.i = s.i := rfl
@[simp] theorem State.toggled_pc (x y : Nat) : (s.dispToggle x y).2.pc = s.pc := rfl
@[simp] theorem State.toggled_stack (x y : Nat) : (s.dispToggle x y).2.stack = s.stack := rfl
@[simp] theorem State.toggled_sp (x y : Nat) : (s.dispToggle x y).2.sp = s.sp := rfl
@[simp] theorem State.toggled_dt (x y : Nat) : (s.dispToggle x y).2.dt = s.dt := rfl
@[simp] theorem State.toggled_st (x y : Nat) : (s.dispToggle x y).2.st = s.st := rfl
@[simp] theorem State.toggled_halted (x y : Nat) : (s.dispToggle x y).2.halted = s.halted := rfl
@[simp] theorem State.toggled_keyWait (x y : Nat) : (s.dispToggle x y).2.keyWait = s.keyWait := rfl
@[simp] theorem State.toggled_disp (x y : Nat) : (s.dispToggle x y).2.disp = Bitmap.toggle s.disp (pixelIndex s.params x y) := rfl
@[simp] theorem State.toggled_fresh (x y : Nat) : (s.dispToggle x y).2.fresh = s.fresh := rfl
@[simp] theorem State.toggled_faulted (x y : Nat) : (s.dispToggle x y).2.faulted = s.faulted := rfl
@[simp] theorem State.toggled_keys (x y : Nat) : (s.dispToggle x y).2.keys = s.keys := rfl
@[simp] theorem State.toggled_outputs (x y : Nat) : (s.dispToggle x y).2.outputs = .dispToggle x y :: s.outputs := rfl
@[simp] theorem State.toggled_pending (x y : Nat) : (s.dispToggle x y).2.pending = s.pending := rfl
@[simp] theorem State.toggled_clock (x y : Nat) : (s.dispToggle x y).2.clock = s.clock := rfl
@[simp] theorem State.toggled_draws (x y : Nat) : (s.dispToggle x y).2.draws = s.draws := rfl
@[simp] theorem State.toggled_params (x y : Nat) : (s.dispToggle x y).2.params = s.params := rfl
@[simp] theorem State.toggled_getV (x y : Nat) (r : Reg) : (s.dispToggle x y).2.getV r = s.getV r := rfl
@[simp] theorem State.toggled_byteAt (x y : Nat) (a : Nat) : (s.dispToggle x y).2.byteAt a = s.byteAt a := rfl
@[simp] theorem State.toggled_stackAt (x y : Nat) (j : BitVec 4) : (s.dispToggle x y).2.stackAt j = s.stackAt j := rfl
@[simp] theorem State.toggled_keyHeld (x y : Nat) (k : BitVec 4) : (s.dispToggle x y).2.keyHeld k = s.keyHeld k := rfl
@[simp] theorem State.toggled_pixels (x y : Nat) : (s.dispToggle x y).2.pixels = s.pixels := rfl

/-! ## Register and stack accessors after the update of their own field -/

@[simp] theorem State.getV_setV_self (x : Reg) (b : Byte) : (s.setV x b).getV x = b := by
  simp [State.getV, State.setV]

theorem State.getV_setV (x r : Reg) (b : Byte) : (s.setV x b).getV r = if r = x then b else s.getV r := by
  unfold State.getV State.setV
  simp only [Vector.getElem_set]
  split <;> split <;> simp_all [BitVec.toNat_inj]

theorem State.getV_setV_of_ne {x r : Reg} (h : r ≠ x) (b : Byte) : (s.setV x b).getV r = s.getV r := by
  simp [State.getV_setV, h]

theorem State.stackAt_push (w : Word) (j : BitVec 4) :
    (s.push w).stackAt j = if j = s.sp then w else s.stackAt j := by
  unfold State.stackAt State.push
  simp only [Vector.getElem_set]
  split <;> split <;> simp_all [BitVec.toNat_inj]

@[simp] theorem State.stackAt_push_self (w : Word) : (s.push w).stackAt s.sp = w := by
  simp [State.stackAt_push]

theorem State.keyHeld_setKey (c k : BitVec 4) (h : Bool) :
    (s.setKey c h).keyHeld k = if k = c then h else s.keyHeld k := by
  unfold State.keyHeld State.setKey
  simp only [Vector.getElem_set]
  split <;> split <;> simp_all [BitVec.toNat_inj]

/-! ## Conditional and composed updates -/

@[simp] theorem State.skipIf_true : s.skipIf true = s.skip := rfl
@[simp] theorem State.skipIf_false : s.skipIf false = s := rfl

theorem State.skipIf_pc (c : Bool) : (s.skipIf c).pc = if c then s.pc + 2 else s.pc := by cases c <;> rfl

@[simp] theorem State.dispToggle_fst (x y : Nat) :
    (s.dispToggle x y).1 = Bitmap.isSet s.disp (pixelIndex s.params x y) := rfl

theorem State.unmatched_noop {w : Word} (h : s.params.unmatched = .noop) : s.unmatched w = s := by
  simp [State.unmatched, h]

theorem State.unmatched_refuse {w : Word} (h : s.params.unmatched = .refuse) :
    s.unmatched w = s.raise (.refused w) := by
  simp [State.unmatched, h]

/-- `unmatched` does nothing, or sets `faulted` to the refused word (R61). -/
theorem State.unmatched_cases (w : Word) : s.unmatched w = s ∨ s.unmatched w = s.raise (.refused w) := by
  cases h : s.params.unmatched
  · exact .inl (s.unmatched_noop h)
  · exact .inr (s.unmatched_refuse h)

end Sys2Proof.Machine
end

