-- ==== Sys2Proof/Laws/Access.lean ====
section
/-! SUPPORT. Everything the memory accesses can do, one lemma per shared operation: single accesses, stores at ascending
addresses, register loads. -/

namespace Sys2Proof.Machine

/-! ## Single accesses (20_memory R39, R46) -/

theorem State.memRead_inRange (s : State) {a : Nat} (h : a < 4096) : s.memRead a = .done (s.byteAt a) s := by
  simp [State.memRead, Config.memSize, h]

theorem State.memRead_fault (s : State) {a : Nat} (h : 4096 ≤ a) (hp : s.params.oorAccess = .fault) :
    s.memRead a = .stop (s.raise (.outOfRange a)) := by
  simp [State.memRead, Config.memSize, Nat.not_lt.mpr h, hp]

theorem State.memRead_wrap (s : State) {a : Nat} (h : 4096 ≤ a) (hp : s.params.oorAccess = .wrap) :
    s.memRead a = .done (s.byteAt (a % 4096)) s := by
  simp [State.memRead, Config.memSize, Nat.not_lt.mpr h, hp]

theorem State.memRead_drop (s : State) {a : Nat} (h : 4096 ≤ a) (hp : s.params.oorAccess = .drop) :
    s.memRead a = .done (Config.droppedRead s.draws) s.countDraw := by
  simp [State.memRead, Config.memSize, Nat.not_lt.mpr h, hp]

/-- A store reaches its target byte, or no byte; under `fault` out of range it ends the step. -/
theorem State.memWrite_spec (s : State) (a : Nat) (b : Byte) :
    s.memWrite a b =
      if 4096 ≤ a ∧ s.params.oorAccess = .fault then .stop (s.raise (.outOfRange a))
      else
        match storeTarget s.params a with
        | some c => .done () (s.setByte c b)
        | none => .done () s := by
  unfold State.memWrite storeTarget
  by_cases h : a < 4096
  · simp [Config.memSize, h, Nat.not_le.mpr h]
  · cases hp : s.params.oorAccess <;> simp [Config.memSize, h, Nat.le_of_not_lt h]

/-! ## Stores at ascending addresses -/

/-- Memory after `bytes` have been stored from a on, under the parameters p. -/
def storedMem (p : Config.Params) : List Byte → Nat → Memory → Memory
  | [], _, m => m
  | b :: bs, a, m =>
    match storeTarget p a with
    | some c => storedMem p bs (a + 1) (Memory.write m c b)
    | none => storedMem p bs (a + 1) m

/-- Under `fault` a block that starts out of range stores nothing. -/
theorem storedMem_outside {p : Config.Params} (hp : p.oorAccess = .fault) (bs : List Byte) {a : Nat} (h : 4096 ≤ a)
    (m : Memory) : storedMem p bs a m = m := by
  induction bs generalizing a with
  | nil => rfl
  | cons b bs ih =>
    have ht : storeTarget p a = none := by simp [storeTarget, Nat.not_lt.mpr h, hp]
    rw [storedMem, ht]
    exact ih (by omega)

/-- Everything `storeBytes` can do: under `fault` a block that leaves the address space ends the step at the first address
out of range; otherwise the step goes on; memory is `storedMem` either way. -/
theorem storeBytes_spec (bs : List Byte) (a : Nat) (s : State) :
    storeBytes bs a s =
      if bs ≠ [] ∧ 4096 < a + bs.length ∧ s.params.oorAccess = .fault then
        .stop { s with mem := storedMem s.params bs a s.mem, faulted := some (.outOfRange (firstOutOfRange a)) }
      else .done () { s with mem := storedMem s.params bs a s.mem } := by
  induction bs generalizing a s with
  | nil => simp [storeBytes, storedMem]
  | cons b bs ih =>
    rw [storeBytes, State.memWrite_spec]
    by_cases hf : s.params.oorAccess = .fault
    · by_cases ha : 4096 ≤ a
      · have ht : storeTarget s.params a = none := by simp [storeTarget, Nat.not_lt.mpr ha, hf]
        rw [if_pos ⟨ha, hf⟩, if_pos ⟨by simp, by simp; omega, hf⟩, storedMem, ht]
        simp [State.raise, storedMem_outside hf bs (show 4096 ≤ a + 1 by omega), firstOutOfRange, Nat.max_eq_left ha]
      · have ht : storeTarget s.params a = some a := by simp [storeTarget, Nat.lt_of_not_le ha]
        rw [if_neg (fun h => ha h.1), storedMem, ht]
        refine (ih (a + 1) (s.setByte a b)).trans ?_
        have hl : (b :: bs).length = bs.length + 1 := rfl
        by_cases hc : 4096 < a + (b :: bs).length
        · have hne : bs ≠ [] := by
            rintro rfl
            simp at hc
            omega
          have hm : firstOutOfRange (a + 1) = firstOutOfRange a := by unfold firstOutOfRange; omega
          rw [if_pos (show bs ≠ [] ∧ 4096 < a + 1 + bs.length ∧ (s.setByte a b).params.oorAccess = .fault from
            ⟨hne, by omega, hf⟩), if_pos ⟨by simp, hc, hf⟩, hm]
          rfl
        · rw [if_neg (fun h => hc (by omega)), if_neg (fun h => hc h.2.1)]
          rfl
    · rw [if_neg (fun h => hf h.2), if_neg (fun h => hf h.2.2), storedMem]
      cases ht : storeTarget s.params a with
      | none => exact (ih (a + 1) s).trans (if_neg fun h => hf h.2.2)
      | some c => exact (ih (a + 1) (s.setByte c b)).trans (if_neg fun h => hf h.2.2)

/-- A store target lies in the address space. -/
theorem storeTarget_lt {p : Config.Params} {a c : Nat} (h : storeTarget p a = some c) : c < 4096 := by
  unfold storeTarget at h
  split at h
  · simp_all
  · split at h
    · simp only [Option.some.injEq] at h
      omega
    · cases h
    · cases h

/-- A store target is its address mod 4096. -/
theorem storeTarget_mod {p : Config.Params} {a c : Nat} (h : storeTarget p a = some c) : c = a % 4096 := by
  unfold storeTarget at h
  split at h
  · simp only [Option.some.injEq] at h
    omega
  · split at h
    · simp only [Option.some.injEq] at h
      omega
    · cases h
    · cases h

/-- Stores keep the canonical form of memory. -/
theorem storedMem_wf (p : Config.Params) (bs : List Byte) (a : Nat) {m : Memory} (hw : Memory.wf m = true) :
    Memory.wf (storedMem p bs a m) = true := by
  induction bs generalizing a m with
  | nil => exact hw
  | cons b bs ih =>
    rw [storedMem]
    split
    · rename_i c hc
      exact ih _ (Memory.write_wf b hw (storeTarget_lt hc))
    · exact ih _ hw

/-- A byte no store reaches keeps its value. -/
theorem read_storedMem_other (p : Config.Params) (bs : List Byte) (a c : Nat) {m : Memory} (hw : Memory.wf m = true)
    (h : ∀ k, k < bs.length → storeTarget p (a + k) ≠ some c) : Memory.read (storedMem p bs a m) c = Memory.read m c := by
  induction bs generalizing a m with
  | nil => rfl
  | cons b bs ih =>
    have h0 : storeTarget p a ≠ some c := by simpa using h 0 (by simp)
    have hs : ∀ k, k < bs.length → storeTarget p (a + 1 + k) ≠ some c := fun k hk => by
      have := h (k + 1) (by simp; omega)
      rwa [show a + (k + 1) = a + 1 + k by omega] at this
    rw [storedMem]
    split
    · rename_i d hd
      rw [ih _ (Memory.write_wf b hw (storeTarget_lt hd)) hs, Memory.read_write hw, if_neg]
      rintro rfl
      exact h0 hd
    · exact ih _ hw hs

/-- Two stores of a block reach one byte only under `wrap`, and then 4096 or more apart. -/
theorem storeTarget_inj {p : Config.Params} {a b c : Nat} (h : storeTarget p a = some c) (h' : storeTarget p b = some c)
    (hlt : a < b) : p.oorAccess = .wrap ∧ a + 4096 ≤ b := by
  have h1 := storeTarget_mod h
  have h2 := storeTarget_mod h'
  have hb : ¬ b < 4096 := by
    intro hb
    omega
  refine ⟨?_, by omega⟩
  unfold storeTarget at h'
  rw [if_neg hb] at h'
  split at h'
  · assumption
  · cases h'
  · cases h'

/-- Of a block, each byte that a store reaches holds what was stored there; under `wrap` the block must not be longer than
memory. -/
theorem read_storedMem (p : Config.Params) (bs : List Byte) (a : Nat) {m : Memory} (hw : Memory.wf m = true)
    (hl : bs.length ≤ 4096 ∨ p.oorAccess ≠ .wrap) {k c : Nat} {b : Byte} (hb : bs[k]? = some b)
    (hc : storeTarget p (a + k) = some c) : Memory.read (storedMem p bs a m) c = b := by
  induction bs generalizing a m k with
  | nil => simp at hb
  | cons d bs ih =>
    rw [storedMem]
    cases k with
    | zero =>
      simp only [List.getElem?_cons_zero, Option.some.injEq] at hb
      subst hb
      simp only [Nat.add_zero] at hc
      rw [hc]
      simp only
      rw [read_storedMem_other p bs (a + 1) c (Memory.write_wf _ hw (storeTarget_lt hc)), Memory.read_write hw, if_pos rfl]
      intro k hk hck
      obtain ⟨hwrap, hfar⟩ := storeTarget_inj hc hck (by omega)
      rcases hl with hl | hl
      · simp only [List.length_cons] at hl
        omega
      · exact hl hwrap
    | succ k =>
      rw [List.getElem?_cons_succ] at hb
      rw [show a + (k + 1) = a + 1 + k by omega] at hc
      have hl' : bs.length ≤ 4096 ∨ p.oorAccess ≠ .wrap :=
        hl.imp_left fun h => by
          simp only [List.length_cons] at h
          omega
      split
      · rename_i e he
        exact ih _ (Memory.write_wf _ hw (storeTarget_lt he)) hl' hb hc
      · exact ih _ hw hl' hb hc

/-! ## Reads at ascending addresses (49_bcd_block R108, 46_sprite_draw R98) -/

/-- How many draws have been taken before the read of row k of a block read from s0 at address a. -/
def drawsBefore (s0 : State) (a k : Nat) : Nat :=
  s0.draws + (if s0.params.oorAccess = .drop then a + k - firstOutOfRange a else 0)

/-- s reads row k of the block as s0 would: same memory, same parameters, the draws of the rows before taken. -/
structure ReadsAs (s0 : State) (a k : Nat) (s : State) : Prop where
  mem    : s.mem = s0.mem
  params : s.params = s0.params
  draws  : s.draws = drawsBefore s0 a k

theorem ReadsAs.refl (s : State) (a : Nat) : ReadsAs s a 0 s := by
  refine ⟨rfl, rfl, ?_⟩
  unfold drawsBefore firstOutOfRange
  split <;> omega

/-- A read that does not fault gives `rowByte`, and the state reads the next row. -/
theorem ReadsAs.memRead {s0 s : State} {a k : Nat} (h : ReadsAs s0 a k s)
    (ok : a + k < 4096 ∨ s0.params.oorAccess ≠ .fault) :
    s.memRead (a + k) = .done (rowByte s0 a k) { s with draws := drawsBefore s0 a (k + 1) } := by
  have hd := h.draws
  by_cases hr : a + k < 4096
  · have hb : rowByte s0 a k = s.byteAt (a + k) := by simp [rowByte, hr, State.byteAt, h.mem]
    have hn : drawsBefore s0 a (k + 1) = s.draws := by
      rw [hd]; unfold drawsBefore firstOutOfRange; split <;> omega
    rw [s.memRead_inRange hr, hb, hn]
  · have hle : 4096 ≤ a + k := by omega
    cases hp : s0.params.oorAccess with
    | fault => exact absurd hp (ok.resolve_left hr)
    | wrap =>
      have hn : drawsBefore s0 a (k + 1) = s.draws := by rw [hd]; simp [drawsBefore, hp]
      have hb : rowByte s0 a k = s.byteAt ((a + k) % 4096) := by simp [rowByte, hr, hp, State.byteAt, h.mem]
      rw [s.memRead_wrap hle (by rw [h.params, hp]), hn, hb]
    | drop =>
      have hn : drawsBefore s0 a (k + 1) = s.draws + 1 := by
        rw [hd]; simp [drawsBefore, hp, firstOutOfRange]; omega
      have hb : rowByte s0 a k = Config.droppedRead s.draws := by simp [rowByte, hr, hp, hd, drawsBefore]
      rw [s.memRead_drop hle (by rw [h.params, hp]), hn, hb]
      rfl

/-- A read out of range under `fault` ends the step. -/
theorem ReadsAs.memRead_fault {s0 s : State} {a k : Nat} (h : ReadsAs s0 a k s) (hr : 4096 ≤ a + k)
    (hp : s0.params.oorAccess = .fault) : s.memRead (a + k) = .stop (s.raise (.outOfRange (a + k))) :=
  s.memRead_fault hr (by rw [h.params, hp])

/-- Everything `loadRegs` can do. The state differs from s in the registers, the draws and `faulted` alone; a register of
the block that is read holds its byte; every other keeps its value; under `fault` the first address out of range ends
the step. -/
theorem loadRegs_spec {s0 : State} (a n k : Nat) (s : State) (hk : k + n ≤ 16) (h : ReadsAs s0 a k s) :
    ∃ t : State, (loadRegs a n k s).finish (fun _ t => t) = t ∧
      t = { s with
        v := t.v
        draws := drawsBefore s0 a (k + n)
        faulted := if n ≠ 0 ∧ 4096 < a + k + n ∧ s0.params.oorAccess = .fault
          then some (.outOfRange (firstOutOfRange (a + k))) else s.faulted } ∧
      ∀ j : Reg, t.getV j =
        if k ≤ j.toNat ∧ j.toNat < k + n ∧ (a + j.toNat < 4096 ∨ s0.params.oorAccess ≠ .fault)
        then rowByte s0 a j.toNat else s.getV j := by
  induction n generalizing k s with
  | zero =>
    refine ⟨s, rfl, ?_, fun j => ?_⟩
    · rw [if_neg (by simp), Nat.add_zero, ← h.draws]
    · rw [if_neg (by omega)]
  | succ n ih =>
    rw [loadRegs]
    by_cases ok : a + k < 4096 ∨ s0.params.oorAccess ≠ .fault
    · rw [h.memRead ok]
      have hnext : ReadsAs s0 a (k + 1)
          ({ s with draws := drawsBefore s0 a (k + 1) }.setV (BitVec.ofNat 4 k) (rowByte s0 a k)) :=
        ⟨h.mem, h.params, rfl⟩
      obtain ⟨t, ht, hrec, hv⟩ := ih (k + 1) _ (by omega) hnext
      refine ⟨t, ht, ?_, fun j => ?_⟩
      · have hfin : (n ≠ 0 ∧ 4096 < a + (k + 1) + n ∧ s0.params.oorAccess = .fault) ↔
            (n + 1 ≠ 0 ∧ 4096 < a + k + (n + 1) ∧ s0.params.oorAccess = .fault) := by
          constructor
          · rintro ⟨_, h2, h3⟩
            exact ⟨by omega, by omega, h3⟩
          · rintro ⟨_, h2, h3⟩
            have := ok.resolve_right (fun hne => hne h3)
            exact ⟨by omega, by omega, h3⟩
        have hfirst : 4096 < a + k + (n + 1) ∧ s0.params.oorAccess = .fault →
            firstOutOfRange (a + (k + 1)) = firstOutOfRange (a + k) := by
          rintro ⟨_, h3⟩
          have := ok.resolve_right (fun hne => hne h3)
          unfold firstOutOfRange
          omega
        rw [hrec]
        by_cases hc : n + 1 ≠ 0 ∧ 4096 < a + k + (n + 1) ∧ s0.params.oorAccess = .fault
        · rw [if_pos (hfin.mpr hc), if_pos hc, hfirst hc.2, show k + 1 + n = k + (n + 1) by omega]
          rfl
        · rw [if_neg (fun x => hc (hfin.mp x)), if_neg hc, show k + 1 + n = k + (n + 1) by omega]
          rfl
      · rw [hv j, State.getV_setV]
        have hkk : (BitVec.ofNat 4 k).toNat = k := by simp; omega
        by_cases hjk : j.toNat = k
        · have hj : j = BitVec.ofNat 4 k := BitVec.eq_of_toNat_eq (by rw [hkk, hjk])
          rw [if_neg (by omega), if_pos hj, if_pos ⟨by omega, by omega, by rw [hjk]; exact ok⟩, hjk]
        · have hj : j ≠ BitVec.ofNat 4 k := fun he => hjk (by rw [he, hkk])
          rw [if_neg hj]
          by_cases hc : k + 1 ≤ j.toNat ∧ j.toNat < k + 1 + n ∧ (a + j.toNat < 4096 ∨ s0.params.oorAccess ≠ .fault)
          · rw [if_pos hc, if_pos ⟨by omega, by omega, hc.2.2⟩]
          · rw [if_neg hc, if_neg (fun x => hc ⟨by omega, by omega, x.2.2⟩)]
            rfl
    · have hle : 4096 ≤ a + k := by omega
      have hp : s0.params.oorAccess = .fault := by
        by_contra hne
        exact ok (Or.inr hne)
      rw [h.memRead_fault hle hp]
      refine ⟨s.raise (.outOfRange (a + k)), rfl, ?_, fun j => ?_⟩
      · rw [if_pos ⟨by omega, by omega, hp⟩]
        have hd : drawsBefore s0 a (k + (n + 1)) = s.draws := by rw [h.draws]; simp [drawsBefore, hp]
        rw [hd, show firstOutOfRange (a + k) = a + k from Nat.max_eq_left hle]
        rfl
      · rw [if_neg]
        · rfl
        · rintro ⟨h1, _, h3⟩
          rcases h3 with h3 | h3
          · omega
          · exact h3 hp

end Sys2Proof.Machine
end

