-- ==== Sys2Proof/Laws/Bitmap.lean ====
section
/-! SUPPORT. The laws of the bitmap as data: what a toggle does to each pixel, and that it keeps the canonical form. -/

namespace Sys2Proof.Machine

theorem Bitmap.isSet_cons (q : Nat) (d : Bitmap) (p : Nat) : Bitmap.isSet (q :: d) p = (p == q || Bitmap.isSet d p) :=
  List.contains_cons

/-- A pixel below every entry is clear. -/
theorem Bitmap.isSet_below {size lo p : Nat} {d : Bitmap} (hw : Bitmap.wfFrom size lo d = true) (hp : p < lo) :
    Bitmap.isSet d p = false := by
  induction d generalizing lo with
  | nil => rfl
  | cons q d ih =>
    simp only [Bitmap.wfFrom, Bool.and_eq_true, decide_eq_true_eq] at hw
    rw [Bitmap.isSet_cons, ih hw.2 (by omega)]
    simp
    omega

theorem Bitmap.wfFrom_mono {size lo lo' : Nat} {d : Bitmap} (h : lo' ≤ lo) (hw : Bitmap.wfFrom size lo d = true) :
    Bitmap.wfFrom size lo' d = true := by
  cases d with
  | nil => rfl
  | cons q d =>
    simp only [Bitmap.wfFrom, Bool.and_eq_true, decide_eq_true_eq] at hw ⊢
    exact ⟨⟨by omega, hw.1.2⟩, hw.2⟩

/-- A toggle keeps the canonical form from lo on. -/
theorem Bitmap.toggle_wfFrom {size lo p : Nat} {d : Bitmap} (hw : Bitmap.wfFrom size lo d = true) (hlo : lo ≤ p)
    (hp : p < size) : Bitmap.wfFrom size lo (Bitmap.toggle d p) = true := by
  induction d generalizing lo with
  | nil => simp [Bitmap.toggle, Bitmap.wfFrom, hlo, hp]
  | cons q d ih =>
    have hw' := hw
    simp only [Bitmap.wfFrom, Bool.and_eq_true, decide_eq_true_eq] at hw'
    obtain ⟨⟨h1, h2⟩, h3⟩ := hw'
    unfold Bitmap.toggle
    split
    · simp only [Bitmap.wfFrom, Bool.and_eq_true, decide_eq_true_eq]
      exact ⟨⟨hlo, hp⟩, ⟨by omega, h2⟩, h3⟩
    · split
      · exact Bitmap.wfFrom_mono (by omega) h3
      · simp only [Bitmap.wfFrom, Bool.and_eq_true, decide_eq_true_eq]
        exact ⟨⟨h1, h2⟩, ih h3 (by omega)⟩

/-- A toggle of a pixel of the bitmap keeps the canonical form. -/
theorem Bitmap.toggle_wf {size p : Nat} {d : Bitmap} (hw : Bitmap.wf size d = true) (hp : p < size) :
    Bitmap.wf size (Bitmap.toggle d p) = true :=
  Bitmap.toggle_wfFrom hw (Nat.zero_le p) hp

/-- A toggle from lo on inverts its pixel and no other. -/
theorem Bitmap.isSet_toggleFrom {size lo : Nat} {d : Bitmap} (p r : Nat) (hw : Bitmap.wfFrom size lo d = true) :
    Bitmap.isSet (Bitmap.toggle d p) r = (if r = p then !Bitmap.isSet d r else Bitmap.isSet d r) := by
  induction d generalizing lo with
  | nil =>
    by_cases h : r = p <;> simp [Bitmap.toggle, Bitmap.isSet, h]
  | cons q d ih =>
    simp only [Bitmap.wfFrom, Bool.and_eq_true, decide_eq_true_eq] at hw
    obtain ⟨⟨_, _⟩, h3⟩ := hw
    unfold Bitmap.toggle
    split
    · rename_i hpq
      by_cases h : r = p
      · subst h
        have hb := Bitmap.isSet_below h3 (p := r) (by omega)
        have hne : (r == q) = false := by simp; omega
        simp [Bitmap.isSet_cons, hb, hne]
      · simp [Bitmap.isSet_cons, h]
    · split
      · rename_i hpq
        subst hpq
        by_cases h : r = p
        · subst h
          simp [Bitmap.isSet_cons, Bitmap.isSet_below h3 (Nat.lt_succ_self r)]
        · simp [Bitmap.isSet_cons, h]
      · rename_i hne
        rw [Bitmap.isSet_cons, ih h3, Bitmap.isSet_cons]
        by_cases h : r = p
        · subst h
          have hrq : (r == q) = false := by simpa using hne
          simp [hrq]
        · simp [h]

/-- A toggle inverts its pixel and no other (R119). -/
theorem Bitmap.isSet_toggle {size : Nat} {d : Bitmap} (hw : Bitmap.wf size d = true) (p r : Nat) :
    Bitmap.isSet (Bitmap.toggle d p) r = (if r = p then !Bitmap.isSet d r else Bitmap.isSet d r) :=
  Bitmap.isSet_toggleFrom p r hw

/-- Two bitmaps in canonical form with the same pixels are equal. -/
theorem Bitmap.ext_from {size lo lo' : Nat} {d e : Bitmap} (hd : Bitmap.wfFrom size lo d = true)
    (he : Bitmap.wfFrom size lo' e = true) (h : ∀ p, Bitmap.isSet d p = Bitmap.isSet e p) : d = e := by
  induction d generalizing lo lo' e with
  | nil =>
    cases e with
    | nil => rfl
    | cons r e => simpa [Bitmap.isSet] using h r
  | cons q d ih =>
    cases e with
    | nil => simpa [Bitmap.isSet] using h q
    | cons r e =>
      simp only [Bitmap.wfFrom, Bool.and_eq_true, decide_eq_true_eq] at hd he
      have hq := h q
      have hr := h r
      rw [Bitmap.isSet_cons, Bitmap.isSet_cons] at hq hr
      have hqr : q = r := by
        rcases Nat.lt_trichotomy q r with hlt | heq | hgt
        · have := Bitmap.isSet_below he.2 (p := q) (by omega)
          simp [this] at hq
          exact hq
        · exact heq
        · have := Bitmap.isSet_below hd.2 (p := r) (by omega)
          simp [this] at hr
          exact hr.symm
      subst hqr
      refine congrArg (q :: ·) (ih hd.2 he.2 fun p => ?_)
      have hp := h p
      rw [Bitmap.isSet_cons, Bitmap.isSet_cons] at hp
      by_cases hpq : p = q
      · subst hpq
        rw [Bitmap.isSet_below hd.2 (Nat.lt_succ_self p), Bitmap.isSet_below he.2 (Nat.lt_succ_self p)]
      · have hb : (p == q) = false := by simpa using hpq
        simpa only [hb, Bool.false_or] using hp

/-- The pixel a toggle reaches is a pixel of the bitmap (R34, R35). -/
theorem pixelIndex_lt {p : Config.Params} (h : 0 < p.displayHeight) (x y : Nat) :
    pixelIndex p x y < Config.displayWidth * p.displayHeight := by
  have hpos : 0 < Config.displayWidth * p.displayHeight := Nat.mul_pos (by decide) h
  unfold pixelIndex
  split
  · exact Nat.mod_lt _ hpos
  · split
    · rename_i hxy
      calc x + Config.displayWidth * y < Config.displayWidth + Config.displayWidth * y := by omega
        _ = Config.displayWidth * (y + 1) := by ring
        _ ≤ _ := Nat.mul_le_mul_left _ hxy.2
    · exact Nat.mod_lt _ hpos

end Sys2Proof.Machine
end

