-- ==== Sys2Proof/Laws/Decode.lean ====
section
/-! SUPPORT. The decoder and the encoder: when a word meets a row's mask, that no earlier row of the table takes it, and
what the fields of an encoded word are. -/

namespace Sys2Proof

/-- Two records that match the same word agree where both masks look. -/
theorem masks_agree {w m p m' p' : Word} (h : w &&& m = p) (h' : w &&& m' = p') : p' &&& m = p &&& m' := by
  subst h h'
  rw [BitVec.and_assoc, BitVec.and_assoc, BitVec.and_comm m' m]

/-- The first matching record decides: if r matches w and no record before r can match a word that r matches, w is r's
(30_encoding R56). -/
theorem decodeWord_of_row {pre post : List OpcodeRow} {r : OpcodeRow} {w : Word} (htab : opcodeTable = pre ++ r :: post)
    (hpre : ∀ q ∈ pre, q.pattern &&& r.mask ≠ r.pattern &&& q.mask) (hw : w &&& r.mask = r.pattern) :
    decodeWord w = .ok (r.build (fieldsOf w)) := by
  have hnone : pre.find? (rowMatches · w) = none := by
    rw [List.find?_eq_none]
    intro q hq hm
    exact hpre q hq (masks_agree hw (by simpa [rowMatches] using hm))
  have hr : rowMatches r w = true := by simpa [rowMatches] using hw
  have hfind : opcodeTable.find? (rowMatches · w) = some r := by
    rw [htab, List.find?_append, hnone, Option.none_or, List.find?_cons, hr]
  unfold decodeWord
  rw [hfind]

/-- The same, the record named by its place in the table. -/
theorem decodeWord_of_index (k : Nat) {r : OpcodeRow} (hr : opcodeTable[k]? = some r)
    (hk : ∀ q ∈ opcodeTable.take k, q.pattern &&& r.mask ≠ r.pattern &&& q.mask) {w : Word}
    (hw : w &&& r.mask = r.pattern) : decodeWord w = .ok (r.build (fieldsOf w)) := by
  obtain ⟨_, he⟩ := List.getElem?_eq_some_iff.mp hr
  refine decodeWord_of_row (pre := opcodeTable.take k) (post := opcodeTable.drop (k + 1)) ?_ hk hw
  rw [← he, List.cons_getElem_drop_succ, List.take_append_drop]

/-! ## Parts of an appended word -/

/-- Bits that lie inside the low part. -/
theorem extract_append_low {v w : Nat} (a : BitVec v) (b : BitVec w) (k l : Nat) (h : k + l ≤ w) :
    (a ++ b).extractLsb' k l = b.extractLsb' k l := by
  ext i hi
  simp only [BitVec.getElem_extractLsb', BitVec.getLsbD_append]
  rw [if_pos (by omega)]

/-- Bits that lie inside the high part. -/
theorem extract_append_high {v w : Nat} (a : BitVec v) (b : BitVec w) (k l : Nat) (h : w ≤ k) :
    (a ++ b).extractLsb' k l = a.extractLsb' (k - w) l := by
  ext i hi
  simp only [BitVec.getElem_extractLsb', BitVec.getLsbD_append]
  rw [if_neg (by omega), show k + i - w = k - w + i by omega]

theorem extract_all {w : Nat} (a : BitVec w) : a.extractLsb' 0 w = a := by
  ext i hi
  simp

/-! ## The fields of the three formats (30_encoding R53, R54) -/

variable (op : BitVec 4) (nnn : Addr) (nn : Byte) (x y : Reg) (n : Nibble)

@[simp] theorem fieldsOf_wordNNN : (fieldsOf (wordNNN op nnn)).nnn = nnn :=
  (extract_append_low op nnn 0 12 (by omega)).trans (extract_all nnn)

@[simp] theorem fieldsOf_wordXNN_x : (fieldsOf (wordXNN op x nn)).x = x :=
  (extract_append_high (op ++ x) nn 8 4 (by omega)).trans
    ((extract_append_low op x 0 4 (by omega)).trans (extract_all x))

@[simp] theorem fieldsOf_wordXNN_nn : (fieldsOf (wordXNN op x nn)).nn = nn :=
  (extract_append_low (op ++ x) nn 0 8 (by omega)).trans (extract_all nn)

@[simp] theorem fieldsOf_wordXYN_x : (fieldsOf (wordXYN op x y n)).x = x :=
  (extract_append_high (op ++ x ++ y) n 8 4 (by omega)).trans
    ((extract_append_high (op ++ x) y 4 4 (by omega)).trans
      ((extract_append_low op x 0 4 (by omega)).trans (extract_all x)))

@[simp] theorem fieldsOf_wordXYN_y : (fieldsOf (wordXYN op x y n)).y = y :=
  (extract_append_high (op ++ x ++ y) n 4 4 (by omega)).trans
    ((extract_append_low (op ++ x) y 0 4 (by omega)).trans (extract_all y))

@[simp] theorem fieldsOf_wordXYN_n : (fieldsOf (wordXYN op x y n)).n = n :=
  (extract_append_low (op ++ x ++ y) n 0 4 (by omega)).trans (extract_all n)

/-! ## The masks of the three formats (30_encoding R53, R56) -/

theorem and_ones (a : BitVec 4) : a &&& 0xF#4 = a := by revert a; decide

theorem wordNNN_and_mask : wordNNN op nnn &&& 0xF000#16 = wordNNN op 0#12 := by
  refine (BitVec.and_append (x₁ := op) (y₁ := nnn) (x₂ := 0xF#4) (y₂ := 0#12)).trans ?_
  rw [and_ones, BitVec.and_zero]
  rfl

theorem wordXYN_and_low : wordXYN op x y n &&& 0xF00F#16 = wordXYN op 0#4 0#4 n := by
  refine (BitVec.and_append (x₁ := op ++ x ++ y) (y₁ := n) (x₂ := 0xF#4 ++ 0#4 ++ 0#4) (y₂ := 0xF#4)).trans ?_
  rw [BitVec.and_append, BitVec.and_append, and_ones, and_ones, BitVec.and_zero, BitVec.and_zero]
  rfl

theorem wordXYN_and_major : wordXYN op x y n &&& 0xF000#16 = wordXYN op 0#4 0#4 0#4 := by
  refine (BitVec.and_append (x₁ := op ++ x ++ y) (y₁ := n) (x₂ := 0xF#4 ++ 0#4 ++ 0#4) (y₂ := 0#4)).trans ?_
  rw [BitVec.and_append, BitVec.and_append, and_ones, BitVec.and_zero, BitVec.and_zero, BitVec.and_zero]
  rfl

theorem wordXNN_and_major : wordXNN op x nn &&& 0xF000#16 = wordXNN op 0#4 0#8 := by
  refine (BitVec.and_append (x₁ := op ++ x) (y₁ := nn) (x₂ := 0xF#4 ++ 0#4) (y₂ := 0#8)).trans ?_
  rw [BitVec.and_append, and_ones, BitVec.and_zero, BitVec.and_zero]
  rfl

theorem wordXNN_and_low : wordXNN op x nn &&& 0xF0FF#16 = wordXNN op 0#4 nn := by
  refine (BitVec.and_append (x₁ := op ++ x) (y₁ := nn) (x₂ := 0xF#4 ++ 0#4) (y₂ := 0xFF#8)).trans ?_
  rw [BitVec.and_append, and_ones, BitVec.and_zero, show nn &&& 0xFF#8 = nn from BitVec.and_allOnes]
  rfl

/-! ## Bytes of a word (20_memory R41) -/

theorem wordOfBytes_bytes (w : Word) : wordOfBytes (highByte w) (lowByte w) = w := by
  have h : ∀ i, (highByte w ++ lowByte w : BitVec (8 + 8)).getLsbD i = w.getLsbD i := by
    intro i
    simp only [highByte, lowByte, BitVec.getLsbD_append, BitVec.getLsbD_extractLsb']
    by_cases h8 : i < 8
    · simp [h8]
    · by_cases h16 : i < 16
      · rw [if_neg h8, show 8 + (i - 8) = i by omega]
        simp
        omega
      · rw [if_neg h8, BitVec.getLsbD_of_ge w i (by omega)]
        simp
        omega
  exact BitVec.eq_of_getLsbD_eq fun i _ => h i

/-- `decode` of two bytes is `decodeWord` of their word. -/
theorem decode_pair (hi lo : Byte) (rest : List Byte) {i : Instr} (h : decodeWord (wordOfBytes hi lo) = .ok i) :
    decode (hi :: lo :: rest) = .ok (i, rest) := by
  simp [decode, h]

theorem decode_pair_error (hi lo : Byte) (rest : List Byte) {e : DecodeReject}
    (h : decodeWord (wordOfBytes hi lo) = .error e) : decode (hi :: lo :: rest) = .error e := by
  simp [decode, h]

/-- What `decodeWord` rejects it rejects as the unmatched word it was given. -/
theorem decodeWord_error {w : Word} {e : DecodeReject} (h : decodeWord w = .error e) : e = .unmatched w := by
  unfold decodeWord at h
  split at h
  · cases h
  · exact (Except.error.inj h).symm

end Sys2Proof
end

