-- ==== Sys2Proof/Laws/Draw.lean ====
section
/-! SUPPORT. Everything the sprite loops can do (46_sprite_draw R97, R98): a drawing is the toggles of its points, in
order; what each pixel is afterwards; when a toggle finds its pixel set. -/

namespace Sys2Proof.Machine

/-- Some toggle of the list, one after the other, finds its pixel set. -/
def hitAfter (p : Config.Params) : Bitmap → List (Nat × Nat) → Bool
  | _, [] => false
  | d, q :: qs => Bitmap.isSet d (pixelIndex p q.1 q.2) || hitAfter p (Bitmap.toggle d (pixelIndex p q.1 q.2)) qs

/-- The bitmap after the toggles of the list. -/
def dispAfter (p : Config.Params) (d : Bitmap) (pts : List (Nat × Nat)) : Bitmap :=
  pts.foldl (fun e q => Bitmap.toggle e (pixelIndex p q.1 q.2)) d

/-- The state after the toggle requests of the list. -/
def State.drawn (s : State) (pts : List (Nat × Nat)) : State :=
  { s with
    disp := dispAfter s.params s.disp pts
    outputs := (pts.map fun q => Output.dispToggle q.1 q.2).reverse ++ s.outputs }

@[simp] theorem State.drawn_nil (s : State) : s.drawn [] = s := rfl

theorem State.drawn_cons (s : State) (q : Nat × Nat) (qs : List (Nat × Nat)) :
    (s.dispToggle q.1 q.2).2.drawn qs = s.drawn (q :: qs) := by
  simp [State.drawn, State.dispToggle, State.emit, dispAfter]

theorem State.drawn_append (s : State) (l m : List (Nat × Nat)) : (s.drawn l).drawn m = s.drawn (l ++ m) := by
  simp [State.drawn, dispAfter]

theorem hitAfter_append (p : Config.Params) (d : Bitmap) (l m : List (Nat × Nat)) :
    hitAfter p d (l ++ m) = (hitAfter p d l || hitAfter p (dispAfter p d l) m) := by
  induction l generalizing d with
  | nil => simp [hitAfter, dispAfter]
  | cons q l ih => simp [hitAfter, dispAfter, ih, Bool.or_assoc]

/-! ## One row -/

/-- The points of the last n columns of a row. -/
def columnPoints (x y : Nat) (b : Byte) (n : Nat) : List (Nat × Nat) :=
  ((List.range' (8 - n) n).filter fun c => b.getLsbD (7 - c)).map fun c => (x + c, y)

theorem columnPoints_all (x y : Nat) (b : Byte) : columnPoints x y b 8 = (setColumns b).map fun c => (x + c, y) := by
  simp [columnPoints, setColumns, List.range_eq_range']

theorem columnPoints_succ (x y : Nat) (b : Byte) {n : Nat} (h : n < 8) :
    columnPoints x y b (n + 1) =
      (if b.getLsbD n then [(x + (7 - n), y)] else []) ++ columnPoints x y b n := by
  unfold columnPoints
  rw [List.range'_succ, show 8 - (n + 1) = 7 - n by omega, show 7 - n + 1 = 8 - n by omega, List.filter_cons,
    show 7 - (7 - n) = n by omega]
  split <;> simp

/-- Everything the column loop does. -/
theorem drawColumns_spec (x y : Nat) (b : Byte) (n : Nat) (hn : n ≤ 8) (hit : Bool) (s : State) :
    drawColumns x y b n hit s =
      (hit || hitAfter s.params s.disp (columnPoints x y b n), s.drawn (columnPoints x y b n)) := by
  induction n generalizing hit s with
  | zero => simp [drawColumns, columnPoints, hitAfter]
  | succ n ih =>
    rw [drawColumns, columnPoints_succ x y b hn]
    split
    · rw [ih (by omega)]
      simp only [List.singleton_append, ← State.drawn_cons s (x + (7 - n), y)]
      rw [hitAfter, ← Bool.or_assoc]
      rfl
    · rw [ih (by omega)]
      simp

/-! ## The rows -/

/-- The points of rows r to r + n - 1, their bytes read as in s0. -/
def rowPoints (s0 : State) (a x y r n : Nat) : List (Nat × Nat) :=
  (List.range' r n).flatMap fun k => (setColumns (rowByte s0 a k)).map fun c => (x + c, y + k)

theorem rowPoints_zero (s0 : State) (a x y n : Nat) : rowPoints s0 a x y 0 n = spritePoints s0 a x y n := by
  simp [rowPoints, spritePoints, List.range_eq_range']

/-- Everything the row loop does where no read faults. -/
theorem drawRows_spec {s0 : State} (x y a n r : Nat) (hit : Bool) (s : State) (h : ReadsAs s0 a r s)
    (ok : a + r + n ≤ 4096 ∨ s0.params.oorAccess ≠ .fault) :
    drawRows x y a n r hit s =
      .done (hit || hitAfter s.params s.disp (rowPoints s0 a x y r n))
        { s.drawn (rowPoints s0 a x y r n) with draws := drawsBefore s0 a (r + n) } := by
  induction n generalizing r hit s with
  | zero =>
    have hd := h.draws
    simp [drawRows, rowPoints, hitAfter, ← hd]
  | succ n ih =>
    have hread : a + r < 4096 ∨ s0.params.oorAccess ≠ .fault := ok.imp_left (by omega)
    rw [drawRows, h.memRead hread]
    simp only
    rw [drawColumns_spec x (y + r) (rowByte s0 a r) 8 (Nat.le_refl 8)]
    simp only
    have hnext : ReadsAs s0 a (r + 1)
        ({ s with draws := drawsBefore s0 a (r + 1) }.drawn (columnPoints x (y + r) (rowByte s0 a r) 8)) :=
      ⟨h.mem, h.params, rfl⟩
    rw [ih (r + 1) _ _ hnext (ok.imp_left (by omega))]
    have hpts : rowPoints s0 a x y r (n + 1) =
        columnPoints x (y + r) (rowByte s0 a r) 8 ++ rowPoints s0 a x y (r + 1) n := by
      rw [columnPoints_all]
      simp [rowPoints, List.range'_succ]
    rw [hpts, hitAfter_append, ← State.drawn_append, show r + 1 + n = r + (n + 1) by omega, Bool.or_assoc]
    rfl

/-- Two parts of the row loop. -/
theorem drawRows_add (x y a m n r : Nat) (hit : Bool) (s : State) :
    drawRows x y a (m + n) r hit s =
      match drawRows x y a m r hit s with
      | .done h t => drawRows x y a n (r + m) h t
      | .stop t => .stop t := by
  induction m generalizing r hit s with
  | zero => simp [drawRows]
  | succ m ih =>
    rw [show m + 1 + n = (m + n) + 1 by omega, drawRows, drawRows]
    cases s.memRead (a + r) with
    | stop t => rfl
    | done b t =>
      simp only
      rw [ih (r + 1), show r + 1 + m = r + (m + 1) by omega]

/-- Everything the row loop does where a read faults: the rows in range are drawn, and the step ends. -/
theorem drawRows_fault {s0 : State} (x y a n : Nat) (hit : Bool) (s : State) (h : ReadsAs s0 a 0 s)
    (hp : s0.params.oorAccess = .fault) (hn : 0 < n) (hout : 4096 < a + n) :
    drawRows x y a n 0 hit s =
      .stop ((s.drawn (rowPoints s0 a x y 0 (4096 - a))).raise (.outOfRange (firstOutOfRange a))) := by
  by_cases ha : a ≤ 4096
  · obtain ⟨k, hk⟩ : ∃ k, n = (4096 - a) + (k + 1) := ⟨n - (4096 - a) - 1, by omega⟩
    rw [hk, drawRows_add, drawRows_spec x y a (4096 - a) 0 hit s h (Or.inl (by omega))]
    simp only
    have hnext : ReadsAs s0 a (0 + (4096 - a))
        { s.drawn (rowPoints s0 a x y 0 (4096 - a)) with draws := drawsBefore s0 a (0 + (4096 - a)) } :=
      ⟨h.mem, h.params, rfl⟩
    rw [drawRows, hnext.memRead_fault (by omega) hp]
    have hd : drawsBefore s0 a (0 + (4096 - a)) = s.draws := by rw [h.draws]; simp [drawsBefore, hp]
    rw [hd, show a + (0 + (4096 - a)) = firstOutOfRange a by unfold firstOutOfRange; omega]
    rfl
  · obtain ⟨k, rfl⟩ : ∃ k, n = k + 1 := ⟨n - 1, by omega⟩
    rw [drawRows, h.memRead_fault (by omega) hp, show 4096 - a = 0 by omega]
    rw [show a + 0 = firstOutOfRange a by unfold firstOutOfRange; omega]
    rfl

/-! ## Pixels -/

theorem dispAfter_wf {p : Config.Params} (hh : 0 < p.displayHeight) {d : Bitmap} (pts : List (Nat × Nat))
    (hw : Bitmap.wf (Config.displayWidth * p.displayHeight) d = true) :
    Bitmap.wf (Config.displayWidth * p.displayHeight) (dispAfter p d pts) = true := by
  induction pts generalizing d with
  | nil => exact hw
  | cons q pts ih => exact ih (Bitmap.toggle_wf hw (pixelIndex_lt hh q.1 q.2))

/-- A pixel after the toggles: inverted as often as a point reaches it. -/
theorem State.pixel_drawn {s : State} (hh : 0 < s.params.displayHeight) (hw : Bitmap.wf s.pixels s.disp = true)
    (pts : List (Nat × Nat)) (c : Nat) : (s.drawn pts).pixel c = (s.pixel c ^^ oddHits s pts c) := by
  induction pts generalizing s with
  | nil => simp [oddHits, State.pixel]
  | cons q pts ih =>
    have hw' : Bitmap.wf s.pixels (Bitmap.toggle s.disp (pixelIndex s.params q.1 q.2)) = true :=
      Bitmap.toggle_wf hw (pixelIndex_lt hh q.1 q.2)
    have ho : oddHits (s.dispToggle q.1 q.2).2 pts c = oddHits s pts c := rfl
    rw [← State.drawn_cons, ih (s := (s.dispToggle q.1 q.2).2) hh hw', ho]
    have hp : (s.dispToggle q.1 q.2).2.pixel c = if c = s.pixelOf q then !s.pixel c else s.pixel c :=
      Bitmap.isSet_toggle hw _ c
    rw [hp]
    have hodd : oddHits s (q :: pts) c = (oddHits s pts c ^^ decide (c = s.pixelOf q)) := by
      unfold oddHits
      rw [List.filter_cons]
      by_cases he : c = s.pixelOf q
      · subst he
        simp only [beq_self_eq_true, if_true, List.length_cons, decide_true, Bool.xor_true]
        generalize (List.filter (fun r => s.pixelOf r == s.pixelOf q) pts).length = k
        rcases Nat.mod_two_eq_zero_or_one k with hk | hk
        · simp [Nat.add_mod, hk]
        · simp [Nat.add_mod, hk]
      · have hb : (s.pixelOf q == c) = false := by simpa using fun h => he h.symm
        simp [hb, he]
    rw [hodd]
    by_cases he : c = s.pixelOf q <;> simp [he]

/-- A toggle finds its pixel set exactly where the points collide. -/
theorem hitAfter_iff {s : State} (hh : 0 < s.params.displayHeight) (hw : Bitmap.wf s.pixels s.disp = true)
    (pts : List (Nat × Nat)) : hitAfter s.params s.disp pts = true ↔ Collides s pts := by
  suffices h : ∀ m l, (hitAfter s.params (dispAfter s.params s.disp l) m = true ↔
      ∃ b q e, m = b ++ q :: e ∧ (s.drawn (l ++ b)).pixel (s.pixelOf q) = true) by
    have h0 := h pts []
    rw [show dispAfter s.params s.disp [] = s.disp from rfl] at h0
    rw [h0]
    unfold Collides
    simp only [List.nil_append, State.pixel_drawn hh hw]
  intro m l
  induction m generalizing l with
  | nil => simp [hitAfter]
  | cons q m ih =>
    have hstep : Bitmap.toggle (dispAfter s.params s.disp l) (pixelIndex s.params q.1 q.2) =
        dispAfter s.params s.disp (l ++ [q]) := by simp [dispAfter]
    rw [hitAfter, Bool.or_eq_true, hstep, ih (l ++ [q])]
    constructor
    · rintro (h | ⟨b, r, e, hm, hp⟩)
      · exact ⟨[], q, m, rfl, by simpa [State.pixel, State.drawn, State.pixelOf] using h⟩
      · exact ⟨q :: b, r, e, by rw [hm]; rfl, by simpa using hp⟩
    · rintro ⟨b, r, e, hm, hp⟩
      cases b with
      | nil =>
        obtain ⟨rfl, rfl⟩ := List.cons.inj hm
        exact Or.inl (by simpa [State.pixel, State.drawn, State.pixelOf] using hp)
      | cons b0 b =>
        obtain ⟨rfl, rfl⟩ := List.cons.inj hm
        exact Or.inr ⟨b, r, e, rfl, by simpa using hp⟩

/-! ## Sprites whose points reach different pixels -/

/-- A point of a sprite: its column is below 8, its row below n. -/
theorem mem_spritePoints {s : State} {a x y n : Nat} {q : Nat × Nat} (h : q ∈ spritePoints s a x y n) :
    ∃ c r, q = (x + c, y + r) ∧ c < 8 ∧ r < n := by
  simp only [spritePoints, List.mem_flatMap, List.mem_range, List.mem_map, setColumns, List.mem_filter] at h
  obtain ⟨r, hr, c, ⟨hc, _⟩, rfl⟩ := h
  exact ⟨c, r, rfl, hc, hr⟩

/-- Under flat_modular with at least 15 rows, two points of one sprite that are not equal reach different pixels (R98). -/
theorem pixelOf_inj {s : State} (hm : s.params.displayMap = .flatModular) (hh : 15 ≤ s.params.displayHeight)
    {x y c r c' r' : Nat} (hc : c < 8) (hr : r < 15) (hc' : c' < 8) (hr' : r' < 15)
    (h : s.pixelOf (x + c, y + r) = s.pixelOf (x + c', y + r')) : c = c' ∧ r = r' := by
  have hdef : ∀ u v, s.pixelOf (u, v) = (u + 64 * v) % (64 * s.params.displayHeight) := fun u v => by
    simp [State.pixelOf, pixelIndex, hm, Config.displayWidth]
  rw [hdef, hdef] at h
  have hz : ((64 * s.params.displayHeight : Nat) : Int) ∣ ((c : Int) + 64 * r - (c' + 64 * r')) := by
    have := (Nat.modEq_iff_dvd.mp h.symm)
    push_cast at this ⊢
    rw [show ((c : Int) + 64 * r - (c' + 64 * r')) = (x + c + 64 * (y + r)) - (x + c' + 64 * (y + r')) by ring]
    exact this
  have hz0 := Int.eq_zero_of_abs_lt_dvd hz (by push_cast; rw [abs_lt]; constructor <;> omega)
  omega

/-- So the points of a sprite reach pairwise different pixels. -/
theorem spritePoints_pairwise {s : State} (hm : s.params.displayMap = .flatModular) (hh : 15 ≤ s.params.displayHeight)
    (a x y : Nat) {n : Nat} (hn : n ≤ 15) :
    (spritePoints s a x y n).Pairwise fun p q => s.pixelOf p ≠ s.pixelOf q := by
  unfold spritePoints
  rw [List.pairwise_flatMap]
  refine ⟨fun r hr => ?_, ?_⟩
  · rw [List.pairwise_map]
    have hcol : (setColumns (rowByte s a r)).Pairwise (· ≠ ·) := List.Pairwise.filter _ List.nodup_range
    refine hcol.imp_of_mem fun {c c'} hc hc' hne he => hne ?_
    simp only [setColumns, List.mem_filter, List.mem_range] at hc hc' hr
    exact (pixelOf_inj hm hh hc.1 (by omega) hc'.1 (by omega) he).1
  · refine List.Pairwise.imp_of_mem (fun {r r'} hr hr' hne p hp q hq he => hne ?_) (List.nodup_range (n := n))
    simp only [setColumns, List.mem_map, List.mem_filter, List.mem_range] at hp hq hr hr'
    obtain ⟨c, ⟨hc, _⟩, rfl⟩ := hp
    obtain ⟨c', ⟨hc', _⟩, rfl⟩ := hq
    exact (pixelOf_inj hm hh hc (by omega) hc' (by omega) he).2

/-- Where the points reach pairwise different pixels, a pixel is reached an odd number of times exactly where it is reached. -/
theorem oddHits_of_pairwise {s : State} {pts : List (Nat × Nat)} (h : pts.Pairwise fun p q => s.pixelOf p ≠ s.pixelOf q)
    (c : Nat) : oddHits s pts c = true ↔ ∃ q ∈ pts, s.pixelOf q = c := by
  have hlen : (pts.filter fun q => s.pixelOf q == c).length = if ∃ q ∈ pts, s.pixelOf q = c then 1 else 0 := by
    induction pts with
    | nil => simp
    | cons q pts ih =>
      rw [List.pairwise_cons] at h
      rw [List.filter_cons]
      by_cases hq : s.pixelOf q = c
      · have hnone : ¬ ∃ r ∈ pts, s.pixelOf r = c := by
          rintro ⟨r, hr, hrc⟩
          exact h.1 r hr (hq.trans hrc.symm)
        rw [if_pos (by simpa using hq), List.length_cons, ih h.2, if_neg hnone, if_pos ⟨q, by simp, hq⟩]
      · rw [if_neg (by simpa using hq), ih h.2]
        simp only [List.mem_cons, exists_eq_or_imp, hq, false_or]
  unfold oddHits
  rw [hlen]
  split <;> simp_all

/-- ... and the sprite collides exactly where one of its pixels was set before. -/
theorem collides_of_pairwise {s : State} {pts : List (Nat × Nat)}
    (h : pts.Pairwise fun p q => s.pixelOf p ≠ s.pixelOf q) :
    Collides s pts ↔ ∃ q ∈ pts, s.pixel (s.pixelOf q) = true := by
  have hodd : ∀ b q e, pts = b ++ q :: e → oddHits s b (s.pixelOf q) = false := by
    intro b q e he
    rw [he, List.pairwise_append] at h
    rw [← Bool.not_eq_true, oddHits_of_pairwise h.1]
    rintro ⟨r, hr, hrq⟩
    exact h.2.2 r hr q (by simp) hrq
  constructor
  · rintro ⟨b, q, e, he, hp⟩
    rw [hodd b q e he, Bool.xor_false] at hp
    exact ⟨q, by simp [he], hp⟩
  · rintro ⟨q, hq, hp⟩
    obtain ⟨b, e, he⟩ := List.append_of_mem hq
    exact ⟨b, q, e, he, by rw [hodd b q e he, Bool.xor_false, hp]⟩
end Sys2Proof.Machine
end

