-- ==== Sys2Proof/Laws/Frame.lean ====
section
/-! SUPPORT. The frames of the shared operations, and how frames compose. -/

namespace Sys2Proof.Machine

theorem Frame.refl (c : Touches) (s : State) : Frame c s s := by
  constructor <;> intros <;> first | rfl | exact ⟨rfl, rfl⟩

/-- What two operations in a row may touch. -/
def Touches.both (c d : Touches) : Touches :=
  { regs := c.regs ++ d.regs, i := c.i || d.i, pc := c.pc || d.pc, sp := c.sp || d.sp, slots := c.slots ++ d.slots
    dt := c.dt || d.dt, st := c.st || d.st, engine := c.engine || d.engine, disp := c.disp || d.disp
    outputs := c.outputs || d.outputs, draws := c.draws || d.draws, faulted := c.faulted || d.faulted
    stored := c.stored ++ d.stored }

theorem Frame.trans {c d : Touches} {s t u : State} (h : Frame c s t) (k : Frame d t u) : Frame (c.both d) s u where
  regs r hr := by
    simp only [Touches.both, List.mem_append, not_or] at hr
    rw [k.regs r hr.2, h.regs r hr.1]
  i hi := by
    simp only [Touches.both, Bool.or_eq_false_iff] at hi
    rw [k.i hi.2, h.i hi.1]
  pc hi := by
    simp only [Touches.both, Bool.or_eq_false_iff] at hi
    rw [k.pc hi.2, h.pc hi.1]
  sp hi := by
    simp only [Touches.both, Bool.or_eq_false_iff] at hi
    rw [k.sp hi.2, h.sp hi.1]
  slots j hj := by
    simp only [Touches.both, List.mem_append, not_or] at hj
    rw [k.slots j hj.2, h.slots j hj.1]
  dt hi := by
    simp only [Touches.both, Bool.or_eq_false_iff] at hi
    rw [k.dt hi.2, h.dt hi.1]
  st hi := by
    simp only [Touches.both, Bool.or_eq_false_iff] at hi
    rw [k.st hi.2, h.st hi.1]
  engine hi := by
    simp only [Touches.both, Bool.or_eq_false_iff] at hi
    rw [(k.engine hi.2).1, (k.engine hi.2).2]
    exact h.engine hi.1
  disp hi := by
    simp only [Touches.both, Bool.or_eq_false_iff] at hi
    rw [k.disp hi.2, h.disp hi.1]
  outputs hi := by
    simp only [Touches.both, Bool.or_eq_false_iff] at hi
    rw [k.outputs hi.2, h.outputs hi.1]
  draws hi := by
    simp only [Touches.both, Bool.or_eq_false_iff] at hi
    rw [k.draws hi.2, h.draws hi.1]
  faulted hi := by
    simp only [Touches.both, Bool.or_eq_false_iff] at hi
    rw [k.faulted hi.2, h.faulted hi.1]
  stored a ha := by
    simp only [Touches.both, List.mem_append, not_or] at ha
    rw [k.stored a ha.2, h.stored a ha.1]
  fresh := by rw [k.fresh, h.fresh]
  keys x := by rw [k.keys x, h.keys x]
  pending := by rw [k.pending, h.pending]
  clock := by rw [k.clock, h.clock]
  params := by rw [k.params, h.params]

/-! ## Frames of single updates -/

variable (s : State)

theorem Frame.setV (x : Reg) (b : Byte) : Frame { regs := [x] } s (s.setV x b) := by
  constructor <;> intros <;> first | rfl | exact ⟨rfl, rfl⟩ | skip
  rename_i r hr
  exact s.getV_setV_of_ne (by simpa using hr) b

theorem Frame.jump (w : Word) : Frame { pc := true } s (s.jump w) := by
  constructor <;> intros <;> first | rfl | exact ⟨rfl, rfl⟩ | contradiction

theorem Frame.skip : Frame { pc := true } s s.skip := by
  constructor <;> intros <;> first | rfl | exact ⟨rfl, rfl⟩ | contradiction

theorem Frame.popPc : Frame { pc := true, sp := true } s s.popPc := by
  constructor <;> intros <;> first | rfl | exact ⟨rfl, rfl⟩ | contradiction

theorem Frame.setI (w : Word) : Frame { i := true } s (s.setI w) := by
  constructor <;> intros <;> first | rfl | exact ⟨rfl, rfl⟩ | contradiction

theorem Frame.emit (o : Output) : Frame { outputs := true } s (s.emit o) := by
  constructor <;> intros <;> first | rfl | exact ⟨rfl, rfl⟩ | contradiction

theorem Frame.countDraw : Frame { draws := true } s s.countDraw := by
  constructor <;> intros <;> first | rfl | exact ⟨rfl, rfl⟩ | contradiction

theorem Frame.raise (f : Fault) : Frame { faulted := true } s (s.raise f) := by
  constructor <;> intros <;> first | rfl | exact ⟨rfl, rfl⟩ | contradiction

theorem Frame.dispClear : Frame { disp := true, outputs := true } s s.dispClear := by
  constructor <;> intros <;> first | rfl | exact ⟨rfl, rfl⟩ | contradiction

theorem Frame.waitForKey (x : Reg) : Frame { engine := true } s (s.waitForKey x) := by
  constructor <;> intros <;> first | rfl | contradiction

theorem Frame.push (w : Word) : Frame { sp := true, slots := [s.sp] } s (s.push w) := by
  constructor <;> intros <;> first | rfl | exact ⟨rfl, rfl⟩ | contradiction | skip
  rename_i j hj
  rw [State.stackAt_push, if_neg (by simpa using hj)]

/-- A run of stores touches the bytes it reaches, and `faulted`. -/
theorem Frame.ofStores {m : Memory} {f : Option Fault} (bytes : List Byte) (a : Nat) (hw : Memory.wf s.mem = true)
    (hm : m = storedMem s.params bytes a s.mem) :
    Frame { faulted := true, stored := storeTargets s.params a bytes.length } s { s with mem := m, faulted := f } := by
  constructor <;> intros <;> first | rfl | exact ⟨rfl, rfl⟩ | contradiction | skip
  rename_i c hc
  subst hm
  refine read_storedMem_other s.params bytes a c hw fun k hk ht => hc ?_
  simp only [storeTargets, List.mem_filterMap, List.mem_map, List.mem_range]
  exact ⟨a + k, ⟨k, hk, rfl⟩, ht⟩

end Sys2Proof.Machine
end

