-- ==== Sys2Proof/Laws/PerInstr.lean ====
section
/-! SUPPORT. The family of statements made once per instruction: `RowMatch`, that the encoder writes a word of the
instruction's own row of the opcode table, and that the row reads the instruction back from it (30_encoding R56). -/

namespace Sys2Proof.Laws.RowMatch

open Sys2Proof

/-- Some record of the opcode table matches the instruction's word and gives the instruction back from its fields. -/
def Statement (i : Instr) : Prop :=
  wellFormed i = true → ∃ r ∈ opcodeTable, encodeWord i &&& r.mask = r.pattern ∧ r.build (fieldsOf (encodeWord i)) = i

/-- A record named by its place in the table. -/
theorem of_row {i : Instr} (k : Nat) (r : OpcodeRow) (hr : opcodeTable[k]? = some r)
    (hm : encodeWord i &&& r.mask = r.pattern) (hb : r.build (fieldsOf (encodeWord i)) = i) : Statement i :=
  fun _ => ⟨r, List.mem_of_getElem? hr, hm, hb⟩

theorem cls : Statement .cls := of_row 0 _ rfl (by decide) rfl
theorem ret : Statement .ret := of_row 1 _ rfl (by decide) rfl
theorem sys (nnn : Addr) : Statement (.sys nnn) := of_row 2 _ rfl (wordNNN_and_mask _ _) (by simp [encodeWord])
theorem jp (nnn : Addr) : Statement (.jp nnn) := of_row 3 _ rfl (wordNNN_and_mask _ _) (by simp [encodeWord])
theorem call (nnn : Addr) : Statement (.call nnn) := of_row 4 _ rfl (wordNNN_and_mask _ _) (by simp [encodeWord])
theorem seByte (x : Reg) (nn : Byte) : Statement (.seByte x nn) := of_row 5 _ rfl (wordXNN_and_major _ _ _) (by simp [encodeWord])
theorem sneByte (x : Reg) (nn : Byte) : Statement (.sneByte x nn) := of_row 6 _ rfl (wordXNN_and_major _ _ _) (by simp [encodeWord])
theorem seReg (x : Reg) (y : Reg) : Statement (.seReg x y) := of_row 7 _ rfl (wordXYN_and_low _ _ _ _) (by simp [encodeWord])
theorem ldByte (x : Reg) (nn : Byte) : Statement (.ldByte x nn) := of_row 8 _ rfl (wordXNN_and_major _ _ _) (by simp [encodeWord])
theorem addByte (x : Reg) (nn : Byte) : Statement (.addByte x nn) := of_row 9 _ rfl (wordXNN_and_major _ _ _) (by simp [encodeWord])
theorem ldReg (x : Reg) (y : Reg) : Statement (.ldReg x y) := of_row 10 _ rfl (wordXYN_and_low _ _ _ _) (by simp [encodeWord])
theorem orReg (x : Reg) (y : Reg) : Statement (.orReg x y) := of_row 11 _ rfl (wordXYN_and_low _ _ _ _) (by simp [encodeWord])
theorem andReg (x : Reg) (y : Reg) : Statement (.andReg x y) := of_row 12 _ rfl (wordXYN_and_low _ _ _ _) (by simp [encodeWord])
theorem xorReg (x : Reg) (y : Reg) : Statement (.xorReg x y) := of_row 13 _ rfl (wordXYN_and_low _ _ _ _) (by simp [encodeWord])
theorem addReg (x : Reg) (y : Reg) : Statement (.addReg x y) := of_row 14 _ rfl (wordXYN_and_low _ _ _ _) (by simp [encodeWord])
theorem subReg (x : Reg) (y : Reg) : Statement (.subReg x y) := of_row 15 _ rfl (wordXYN_and_low _ _ _ _) (by simp [encodeWord])
theorem shr (x : Reg) (y : Reg) : Statement (.shr x y) := of_row 16 _ rfl (wordXYN_and_low _ _ _ _) (by simp [encodeWord])
theorem subn (x : Reg) (y : Reg) : Statement (.subn x y) := of_row 17 _ rfl (wordXYN_and_low _ _ _ _) (by simp [encodeWord])
theorem shl (x : Reg) (y : Reg) : Statement (.shl x y) := of_row 18 _ rfl (wordXYN_and_low _ _ _ _) (by simp [encodeWord])
theorem sneReg (x : Reg) (y : Reg) : Statement (.sneReg x y) := of_row 19 _ rfl (wordXYN_and_low _ _ _ _) (by simp [encodeWord])
theorem ldI (nnn : Addr) : Statement (.ldI nnn) := of_row 20 _ rfl (wordNNN_and_mask _ _) (by simp [encodeWord])
theorem jpV0 (nnn : Addr) : Statement (.jpV0 nnn) := of_row 21 _ rfl (wordNNN_and_mask _ _) (by simp [encodeWord])
theorem rnd (x : Reg) (nn : Byte) : Statement (.rnd x nn) := of_row 22 _ rfl (wordXNN_and_major _ _ _) (by simp [encodeWord])
theorem drw (x : Reg) (y : Reg) (n : Nibble) : Statement (.drw x y n) := of_row 23 _ rfl (wordXYN_and_major _ _ _ _) (by simp [encodeWord])
theorem skp (x : Reg) : Statement (.skp x) := of_row 24 _ rfl (wordXNN_and_low _ _ _) (by simp [encodeWord])
theorem sknp (x : Reg) : Statement (.sknp x) := of_row 25 _ rfl (wordXNN_and_low _ _ _) (by simp [encodeWord])
theorem ldVxDt (x : Reg) : Statement (.ldVxDt x) := of_row 26 _ rfl (wordXNN_and_low _ _ _) (by simp [encodeWord])
theorem ldVxK (x : Reg) : Statement (.ldVxK x) := of_row 27 _ rfl (wordXNN_and_low _ _ _) (by simp [encodeWord])
theorem ldDt (x : Reg) : Statement (.ldDt x) := of_row 28 _ rfl (wordXNN_and_low _ _ _) (by simp [encodeWord])
theorem ldSt (x : Reg) : Statement (.ldSt x) := of_row 29 _ rfl (wordXNN_and_low _ _ _) (by simp [encodeWord])
theorem addI (x : Reg) : Statement (.addI x) := of_row 30 _ rfl (wordXNN_and_low _ _ _) (by simp [encodeWord])
theorem ldF (x : Reg) : Statement (.ldF x) := of_row 31 _ rfl (wordXNN_and_low _ _ _) (by simp [encodeWord])
theorem ldB (x : Reg) : Statement (.ldB x) := of_row 32 _ rfl (wordXNN_and_low _ _ _) (by simp [encodeWord])
theorem stRegs (x : Reg) : Statement (.stRegs x) := of_row 33 _ rfl (wordXNN_and_low _ _ _) (by simp [encodeWord])
theorem ldRegs (x : Reg) : Statement (.ldRegs x) := of_row 34 _ rfl (wordXNN_and_low _ _ _) (by simp [encodeWord])

end Sys2Proof.Laws.RowMatch
end

