-- ==== Sys2Proof/Laws/Step.lean ====
section
/-! SUPPORT. Everything a step can do: the handlers, the step cycle of 30_encoding R59, the host's events, the place of a
step in its tick. -/

namespace Sys2Proof.Machine

/-! ## The block and sprite instructions as one record update each -/

/-- A store instruction's state (LD B, LD [I]): memory is `storedMem`, `faulted` is set where the block leaves the address
space under `fault`. -/
theorem finish_storeBytes (bs : List Byte) (a : Nat) (s : State) :
    (storeBytes bs a s).finish (fun _ t => t) =
      { s with
        mem := storedMem s.params bs a s.mem
        faulted := if bs ≠ [] ∧ 4096 < a + bs.length ∧ s.params.oorAccess = .fault
          then some (.outOfRange (firstOutOfRange a)) else s.faulted } := by
  rw [storeBytes_spec]
  split <;> rfl

/-- A run of stores, in short: memory and `faulted` alone change, and memory keeps its canonical form. -/
theorem storeBytes_shape (bs : List Byte) (a : Nat) (s : State) :
    ∃ m g, (storeBytes bs a s = .done () { s with mem := m } ∨ storeBytes bs a s = .stop { s with mem := m, faulted := g }) ∧
      (Memory.wf s.mem = true → Memory.wf m = true) := by
  rw [storeBytes_spec]
  split
  · exact ⟨_, _, .inr rfl, storedMem_wf _ _ _⟩
  · exact ⟨_, s.faulted, .inl rfl, storedMem_wf _ _ _⟩

/-- A skip, taken or not, changes PC alone. -/
theorem State.skipIf_shape (s : State) (c : Bool) : ∃ w, s.skipIf c = { s with pc := w } := by
  cases c
  · exact ⟨s.pc, rfl⟩
  · exact ⟨s.pc + 2, rfl⟩

/-- A key request changes the draws alone. -/
theorem State.keyDown_shape (s : State) (c : Byte) : ∃ d, (s.keyDown c).2 = { s with draws := d } := by
  unfold State.keyDown
  split
  · exact ⟨s.draws, rfl⟩
  · exact ⟨s.draws + 1, rfl⟩

/-- DRW where no row faults. -/
theorem execDrw_ok (x y : Reg) (n : Nibble) (s : State)
    (ok : n = 0 ∨ s.i.toNat + n.toNat ≤ 4096 ∨ s.params.oorAccess ≠ .fault) :
    execDrw x y n s = .next (finishDraw
      (hitAfter s.params s.disp (spritePoints s s.i.toNat (s.getV x).toNat (s.getV y).toNat n.toNat))
      { s.drawn (spritePoints s s.i.toNat (s.getV x).toNat (s.getV y).toNat n.toNat) with
        draws := drawsBefore s s.i.toNat n.toNat }) := by
  unfold execDrw State.blockAddr
  rcases ok with rfl | ok
  · have hd := (ReadsAs.refl s s.i.toNat).draws
    simp [drawRows, Access.finish, spritePoints, hitAfter, ← hd]
  · rw [drawRows_spec _ _ _ _ _ _ _ (ReadsAs.refl s s.i.toNat) (ok.imp_left (by omega)), rowPoints_zero, Nat.zero_add,
      Bool.false_or]
    rfl

/-- DRW where a row faults. -/
theorem execDrw_fault (x y : Reg) (n : Nibble) (s : State) (hp : s.params.oorAccess = .fault) (hn : n ≠ 0)
    (hout : 4096 < s.i.toNat + n.toNat) :
    execDrw x y n s = .next
      ((s.drawn (spritePoints s s.i.toNat (s.getV x).toNat (s.getV y).toNat (4096 - s.i.toNat))).raise
        (.outOfRange (firstOutOfRange s.i.toNat))) := by
  have hn' : 0 < n.toNat := by
    rcases Nat.eq_zero_or_pos n.toNat with h | h
    · exact absurd (BitVec.eq_of_toNat_eq h) hn
    · exact h
  unfold execDrw State.blockAddr
  rw [drawRows_fault _ _ _ _ _ _ (ReadsAs.refl s s.i.toNat) hp hn' hout, rowPoints_zero]
  rfl

/-- DRW either faults at a row or does not. -/
theorem execDrw_cases (n : Nibble) (s : State) :
    (n = 0 ∨ s.i.toNat + n.toNat ≤ 4096 ∨ s.params.oorAccess ≠ .fault) ∨
    (s.params.oorAccess = .fault ∧ n ≠ 0 ∧ 4096 < s.i.toNat + n.toNat) := by
  by_cases hp : s.params.oorAccess = .fault
  · by_cases hn : n = 0
    · exact .inl (.inl hn)
    · by_cases h : s.i.toNat + n.toNat ≤ 4096
      · exact .inl (.inr (.inl h))
      · exact .inr ⟨hp, hn, by omega⟩
  · exact .inl (.inr (.inr hp))

/-! ## What no instruction touches -/

/-- Every instruction answers a next state, with `fresh`, the keys, the pending events, the clock and the parameters as they
were. -/
theorem exec_keeps (i : Instr) (s : State) :
    ∃ t, exec i s = .next t ∧ t.fresh = s.fresh ∧ t.keys = s.keys ∧ t.pending = s.pending ∧ t.clock = s.clock ∧
      t.params = s.params := by
  cases i with
  | sys nnn =>
    refine ⟨_, rfl, ?_⟩
    rcases s.unmatched_cases (wordNNN 0x0#4 nnn) with h | h <;> rw [h] <;> exact ⟨rfl, rfl, rfl, rfl, rfl⟩
  | seByte x nn =>
    refine ⟨_, rfl, ?_⟩
    obtain ⟨w, hw⟩ := s.skipIf_shape _
    rw [hw]
    exact ⟨rfl, rfl, rfl, rfl, rfl⟩
  | sneByte x nn =>
    refine ⟨_, rfl, ?_⟩
    obtain ⟨w, hw⟩ := s.skipIf_shape _
    rw [hw]
    exact ⟨rfl, rfl, rfl, rfl, rfl⟩
  | seReg x y =>
    refine ⟨_, rfl, ?_⟩
    obtain ⟨w, hw⟩ := s.skipIf_shape _
    rw [hw]
    exact ⟨rfl, rfl, rfl, rfl, rfl⟩
  | sneReg x y =>
    refine ⟨_, rfl, ?_⟩
    obtain ⟨w, hw⟩ := s.skipIf_shape _
    rw [hw]
    exact ⟨rfl, rfl, rfl, rfl, rfl⟩
  | skp x =>
    refine ⟨_, rfl, ?_⟩
    obtain ⟨w, hw⟩ := (s.keyDown (s.getV x)).2.skipIf_shape _
    obtain ⟨d, hd⟩ := s.keyDown_shape (s.getV x)
    rw [hw, hd]
    exact ⟨rfl, rfl, rfl, rfl, rfl⟩
  | sknp x =>
    refine ⟨_, rfl, ?_⟩
    obtain ⟨w, hw⟩ := (s.keyDown (s.getV x)).2.skipIf_shape _
    obtain ⟨d, hd⟩ := s.keyDown_shape (s.getV x)
    rw [hw, hd]
    exact ⟨rfl, rfl, rfl, rfl, rfl⟩
  | drw x y n =>
    rcases execDrw_cases n s with h | ⟨h1, h2, h3⟩
    · exact ⟨_, execDrw_ok x y n s h, rfl, rfl, rfl, rfl, rfl⟩
    · exact ⟨_, execDrw_fault x y n s h1 h2 h3, rfl, rfl, rfl, rfl, rfl⟩
  | ldB x =>
    refine ⟨_, rfl, ?_⟩
    rw [finish_storeBytes]
    exact ⟨rfl, rfl, rfl, rfl, rfl⟩
  | stRegs x =>
    refine ⟨_, rfl, ?_⟩
    rw [finish_storeBytes]
    exact ⟨rfl, rfl, rfl, rfl, rfl⟩
  | ldRegs x =>
    have hx : 0 + (x.toNat + 1) ≤ 16 := by have := x.isLt; omega
    obtain ⟨t, ht, hrec, _⟩ := loadRegs_spec s.i.toNat (x.toNat + 1) 0 s hx (ReadsAs.refl s s.i.toNat)
    refine ⟨t, congrArg _ ht, ?_⟩
    rw [hrec]
    exact ⟨rfl, rfl, rfl, rfl, rfl⟩
  | _ => exact ⟨_, rfl, rfl, rfl, rfl, rfl, rfl⟩

/-- The state with another clock. -/
def State.withClock (s : State) (c : Option Clock) : State := { s with clock := c }

theorem ReadsAs.withClock (s : State) (a : Nat) (c : Option Clock) : ReadsAs s a 0 (s.withClock c) :=
  ⟨rfl, rfl, (ReadsAs.refl s a).draws⟩

/-- A load of registers does not read the clock. -/
theorem loadRegs_withClock (a n k : Nat) (s : State) (c : Option Clock) :
    (loadRegs a n k (s.withClock c)).finish (fun _ t => t) = ((loadRegs a n k s).finish fun _ t => t).withClock c := by
  induction n generalizing k s with
  | zero => rfl
  | succ n ih =>
    have hread : (s.withClock c).memRead (a + k) =
        match s.memRead (a + k) with
        | .done b t => .done b (t.withClock c)
        | .stop t => .stop (t.withClock c) := by
      unfold State.memRead
      rw [show (s.withClock c).params = s.params from rfl]
      split
      · rfl
      · cases s.params.oorAccess <;> rfl
    rw [loadRegs, loadRegs, hread]
    cases s.memRead (a + k) with
    | done b t => exact ih (k + 1) (t.setV (BitVec.ofNat 4 k) b)
    | stop t => rfl

/-- No instruction reads the clock. -/
theorem exec_withClock (i : Instr) (s : State) (c : Option Clock) :
    exec i (s.withClock c) = mapNext (State.withClock · c) (exec i s) := by
  have hskip : ∀ (u : State) (b : Bool), (u.withClock c).skipIf b = (u.skipIf b).withClock c := by
    intro u b
    cases b <;> rfl
  have hkey : ∀ b : Byte, (s.withClock c).keyDown b = ((s.keyDown b).1, (s.keyDown b).2.withClock c) := by
    intro b
    unfold State.keyDown
    split <;> rfl
  cases i with
  | sys nnn =>
    refine congrArg Host.Outcome.next ?_
    unfold State.unmatched
    rw [show (s.withClock c).params = s.params from rfl]
    cases s.params.unmatched <;> rfl
  | seByte x nn => exact congrArg Host.Outcome.next (hskip s _)
  | sneByte x nn => exact congrArg Host.Outcome.next (hskip s _)
  | seReg x y => exact congrArg Host.Outcome.next (hskip s _)
  | sneReg x y => exact congrArg Host.Outcome.next (hskip s _)
  | skp x =>
    refine congrArg Host.Outcome.next ?_
    rw [show (s.withClock c).getV x = s.getV x from rfl, hkey]
    exact hskip _ _
  | sknp x =>
    refine congrArg Host.Outcome.next ?_
    rw [show (s.withClock c).getV x = s.getV x from rfl, hkey]
    exact hskip _ _
  | drw x y n =>
    show execDrw x y n (s.withClock c) = mapNext _ (execDrw x y n s)
    rcases execDrw_cases n s with h | ⟨h1, h2, h3⟩
    · rw [execDrw_ok x y n s h, execDrw_ok x y n (s.withClock c) h]
      rfl
    · rw [execDrw_fault x y n s h1 h2 h3, execDrw_fault x y n (s.withClock c) h1 h2 h3]
      rfl
  | ldB x =>
    refine congrArg Host.Outcome.next ?_
    rw [finish_storeBytes, finish_storeBytes]
    rfl
  | stRegs x =>
    refine congrArg Host.Outcome.next ?_
    rw [finish_storeBytes, finish_storeBytes]
    rfl
  | ldRegs x => exact congrArg Host.Outcome.next (loadRegs_withClock _ _ _ _ _)
  | _ => rfl

/-! ## The step cycle -/

theorem fetchDecode_faulted {s : State} (h : s.faulted ≠ none) : fetchDecode s = .idle s := by
  simp [fetchDecode, Option.isSome_iff_ne_none, h]

theorem fetchDecode_halted {s : State} (hf : s.faulted = none) (h : s.halted = true) : fetchDecode s = .idle s := by
  simp [fetchDecode, hf, h]

theorem fetchDecode_bounds {s : State} (hf : s.faulted = none) (hh : s.halted = false) (h : 4096 ≤ s.pc.toNat + 1) :
    fetchDecode s = .idle (s.emit (.fetchBoundsError s.pc)) := by
  simp [fetchDecode, hf, hh, State.fetchFails, Config.memSize, h]

theorem fetchDecode_run {s : State} (h : CanFetch s) {i : Instr} (hd : decodeWord s.fetchWord = .ok i) :
    fetchDecode s = .run i s.advance := by
  obtain ⟨hf, hh, hb⟩ := h
  have hdec : decode s.fetchBytes = .ok (i, []) := decode_pair _ _ [] hd
  have hnb : s.fetchFails = false := by simp [State.fetchFails, Config.memSize]; omega
  simp [fetchDecode, hf, hh, hnb, hdec]

theorem fetchDecode_unmatched {s : State} (h : CanFetch s) {e : DecodeReject} (hd : decodeWord s.fetchWord = .error e) :
    fetchDecode s = .idle (s.advance.unmatched s.fetchWord) := by
  obtain ⟨hf, hh, hb⟩ := h
  have hdec : decode s.fetchBytes = .error e := decode_pair_error _ _ [] hd
  have hnb : s.fetchFails = false := by simp [State.fetchFails, Config.memSize]; omega
  simp [fetchDecode, hf, hh, hnb, hdec]

/-- Everything step() can do up to the handler (60_exceptions R113). -/
theorem fetchDecode_cases (s : State) :
    (fetchDecode s = .idle s ∧ (s.faulted ≠ none ∨ s.halted = true)) ∨
    (fetchDecode s = .idle (s.emit (.fetchBoundsError s.pc)) ∧ 4096 ≤ s.pc.toNat + 1) ∨
    (∃ i, fetchDecode s = .run i s.advance ∧ CanFetch s ∧ decodeWord s.fetchWord = .ok i) ∨
    (∃ e, fetchDecode s = .idle (s.advance.unmatched s.fetchWord) ∧ CanFetch s ∧
      decodeWord s.fetchWord = .error e) := by
  by_cases hf : s.faulted = none
  · cases hh : s.halted with
    | true => exact .inl ⟨fetchDecode_halted hf hh, .inr rfl⟩
    | false =>
      by_cases hb : 4096 ≤ s.pc.toNat + 1
      · exact .inr (.inl ⟨fetchDecode_bounds hf hh hb, hb⟩)
      · have hc : CanFetch s := ⟨hf, hh, by omega⟩
        cases hd : decodeWord s.fetchWord with
        | ok i => exact .inr (.inr (.inl ⟨i, fetchDecode_run hc hd, hc, rfl⟩))
        | error e => exact .inr (.inr (.inr ⟨e, fetchDecode_unmatched hc hd, hc, rfl⟩))
  · exact .inl ⟨fetchDecode_faulted hf, .inl hf⟩

/-- step() answers a next state, with the keys, the pending events, the clock and the parameters as they were. -/
theorem coreStep_keeps (s : State) :
    ∃ t, coreStep s = .next t ∧ t.keys = s.keys ∧ t.pending = s.pending ∧ t.clock = s.clock ∧ t.params = s.params := by
  unfold coreStep
  rcases fetchDecode_cases s with ⟨h, _⟩ | ⟨h, _⟩ | ⟨i, h, _⟩ | ⟨e, h, _⟩ <;> rw [h]
  · exact ⟨s, rfl, rfl, rfl, rfl, rfl⟩
  · exact ⟨_, rfl, rfl, rfl, rfl, rfl⟩
  · obtain ⟨t, ht, _, h2, h3, h4, h5⟩ := exec_keeps i s.advance
    exact ⟨t, ht, h2, h3, h4, h5⟩
  · rcases s.advance.unmatched_cases s.fetchWord with hu | hu <;> rw [hu] <;>
      exact ⟨_, rfl, rfl, rfl, rfl, rfl⟩

/-! ## The host's events -/

/-- A load keeps everything but memory, `fresh` and `faulted`. -/
theorem hostLoad_shape (bytes : Option (List Byte)) (s : State) :
    ∃ m f g, (hostLoad bytes s).2 = { s with mem := m, fresh := f, faulted := g } ∧
      (Memory.wf s.mem = true → Memory.wf m = true) := by
  unfold hostLoad
  split
  · exact ⟨s.mem, s.fresh, s.faulted, rfl, id⟩
  · split
    · exact ⟨s.mem, s.fresh, s.faulted, rfl, id⟩
    · split
      · exact ⟨s.mem, s.fresh, s.faulted, rfl, id⟩
      · rename_i b bs _ _ _
        obtain ⟨m, g, h, hw⟩ := storeBytes_shape (b :: bs) Config.programBase s
        rcases h with h | h <;> rw [h] <;> exact ⟨m, _, _, rfl, hw⟩

theorem deliverKey_cases (k : BitVec 4) (s : State) :
    deliverKey k s = s ∨ ∃ x, s.faulted = none ∧ s.keyWait = some x ∧
      deliverKey k s = { s.setV x (k.setWidth 8) with keyWait := none, halted := false } := by
  unfold deliverKey
  split
  · rename_i x hf hk
    exact .inr ⟨x, hf, hk, rfl⟩
  · exact .inl rfl

theorem atBoundary_congr {s t : State} (h : t.clock = s.clock) : t.atBoundary = s.atBoundary := by
  unfold State.atBoundary
  rw [h]

/-! What reset() does to each field (70_reset_and_hazards R131). -/

@[simp] theorem hostReset_mem (s : State) : (hostReset s).mem = Memory.withFont s.params.font := by simp [hostReset]
@[simp] theorem hostReset_v (s : State) : (hostReset s).v = Vector.replicate 16 0 := by simp [hostReset]
@[simp] theorem hostReset_i (s : State) : (hostReset s).i = 0 := by simp [hostReset]
@[simp] theorem hostReset_pc (s : State) : (hostReset s).pc = 0x200 := by simp [hostReset]
@[simp] theorem hostReset_stack (s : State) : (hostReset s).stack = Vector.replicate 16 0 := by simp [hostReset]
@[simp] theorem hostReset_sp (s : State) : (hostReset s).sp = 0 := by simp [hostReset]
@[simp] theorem hostReset_dt (s : State) : (hostReset s).dt = 0 := by simp [hostReset]
@[simp] theorem hostReset_st (s : State) : (hostReset s).st = 0 := by simp [hostReset]
@[simp] theorem hostReset_halted (s : State) : (hostReset s).halted = false := by simp [hostReset]
@[simp] theorem hostReset_keyWait (s : State) : (hostReset s).keyWait = none := by simp [hostReset]
@[simp] theorem hostReset_disp (s : State) : (hostReset s).disp = [] := by simp [hostReset]
@[simp] theorem hostReset_fresh (s : State) : (hostReset s).fresh = true := by simp [hostReset]
@[simp] theorem hostReset_faulted (s : State) : (hostReset s).faulted = none := by simp [hostReset]
@[simp] theorem hostReset_keys (s : State) : (hostReset s).keys = s.keys := by simp [hostReset]
@[simp] theorem hostReset_outputs (s : State) : (hostReset s).outputs = .dispClear :: s.outputs := by simp [hostReset]
@[simp] theorem hostReset_pending (s : State) : (hostReset s).pending = s.pending := by simp [hostReset]
@[simp] theorem hostReset_clock (s : State) : (hostReset s).clock = s.clock := by simp [hostReset]
@[simp] theorem hostReset_draws (s : State) : (hostReset s).draws = s.draws := by simp [hostReset]
@[simp] theorem hostReset_params (s : State) : (hostReset s).params = s.params := by simp [hostReset]

/-- No host event touches the pending events or the parameters, and none leaves a tick boundary. -/
theorem applyEvent_keeps (e : HostEvent) (s : State) :
    (applyEvent s e).pending = s.pending ∧ (applyEvent s e).params = s.params ∧
      (s.atBoundary = true → (applyEvent s e).atBoundary = true) := by
  cases e with
  | reset =>
    exact ⟨hostReset_pending s, hostReset_params s, fun h => (atBoundary_congr (hostReset_clock s)).trans h⟩
  | pause =>
    simp only [applyEvent, hostPause]
    split <;> exact ⟨rfl, rfl, id⟩
  | resume =>
    simp only [applyEvent, hostResume]
    split <;> exact ⟨rfl, rfl, id⟩
  | keyPress k =>
    simp only [applyEvent, hostKeyPress]
    rcases deliverKey_cases k (s.setKey k true) with h | ⟨x, _, _, h⟩ <;> rw [h] <;> exact ⟨rfl, rfl, id⟩
  | keyRelease k => exact ⟨rfl, rfl, id⟩
  | loadProgram bytes =>
    obtain ⟨m, f, g, h, _⟩ := hostLoad_shape bytes s
    simp only [applyEvent, hostLoadProgram, h]
    exact ⟨rfl, rfl, id⟩
  | run r n => exact ⟨rfl, rfl, fun _ => rfl⟩

theorem applyEvents_keeps (es : List HostEvent) (s : State) :
    (applyEvents s es).pending = s.pending ∧ (applyEvents s es).params = s.params ∧
      (s.atBoundary = true → (applyEvents s es).atBoundary = true) := by
  induction es generalizing s with
  | nil => exact ⟨rfl, rfl, id⟩
  | cons e es ih =>
    obtain ⟨h1, h2, h3⟩ := applyEvent_keeps e s
    obtain ⟨k1, k2, k3⟩ := ih (applyEvent s e)
    exact ⟨k1.trans h1, k2.trans h2, fun h => k3 (h3 h)⟩

/-- At a boundary every event is taken. -/
theorem takeEvents_pending {s : State} (h : s.atBoundary = true) : (takeEvents s).pending = [] := by
  rw [takeEvents, if_pos h, (applyEvents_keeps _ _).1]

theorem takeEvents_inside {s : State} (h : s.atBoundary = false) : takeEvents s = s := by
  rw [takeEvents, if_neg (by simp [h])]

theorem takeEvents_none {s : State} (h : s.pending = []) : takeEvents s = s := by
  unfold takeEvents
  split
  · rw [h]
    cases s
    simp_all [applyEvents]
  · rfl

/-! ## The tick -/

theorem countDelay_cases (s : State) : countDelay s = s ∨ ∃ b, countDelay s = { s with dt := b } := by
  unfold countDelay
  split
  · exact .inl rfl
  · exact .inr ⟨_, rfl⟩

/-- A timer update changes the timers and the outputs alone. -/
theorem timerUpdate_shape (s : State) : ∃ d t o, timerUpdate s = { s with dt := d, st := t, outputs := o } := by
  unfold timerUpdate
  split
  · exact ⟨_, _, _, rfl⟩
  · rcases countDelay_cases s with h | ⟨b, h⟩ <;> rw [h] <;> unfold countSound <;> split
    · exact ⟨_, _, _, rfl⟩
    · split <;> exact ⟨_, _, _, rfl⟩
    · exact ⟨_, _, _, rfl⟩
    · split <;> exact ⟨_, _, _, rfl⟩

theorem endStep_noClock {s : State} (h : s.clock = none) : endStep s = s := by
  simp [endStep, h]

/-- After a step: nothing where no loop runs; else the step is counted, and the last of its tick is followed by the timer
update. -/
theorem endStep_cases (s : State) :
    (s.clock = none ∧ endStep s = s) ∨
    (∃ c, s.clock = some c ∧ c.done + 1 < c.perTick ∧ endStep s = { s with clock := some { c with done := c.done + 1 } }) ∨
    (∃ c, s.clock = some c ∧ c.perTick ≤ c.done + 1 ∧
      endStep s = timerUpdate { s with clock := some { c with done := 0 } }) := by
  cases hc : s.clock with
  | none => exact .inl ⟨rfl, endStep_noClock hc⟩
  | some c =>
    by_cases h : c.done + 1 < c.perTick
    · exact .inr (.inl ⟨c, rfl, h, by simp [endStep, hc, h]⟩)
    · exact .inr (.inr ⟨c, rfl, by omega, by simp [endStep, hc, h]⟩)

theorem endStep_pending (s : State) : (endStep s).pending = s.pending := by
  rcases endStep_cases s with ⟨_, h⟩ | ⟨c, _, _, h⟩ | ⟨c, _, _, h⟩
  · rw [h]
  · rw [h]
  · obtain ⟨d, t, o, hu⟩ := timerUpdate_shape { s with clock := some { c with done := 0 } }
    rw [h, hu]

/-- Everything a step of the machine can do: it takes the events of its boundary, then it is step() of 30_encoding R59 on
what they leave, or nothing in a tick of no steps, and `endStep` follows. -/
theorem step_cases {s t : State} (h : step s = .next t) :
    ((takeEvents s).stepDue = true ∧ ∃ u, coreStep (takeEvents s) = .next u ∧ t = endStep u) ∨
    ((takeEvents s).stepDue = false ∧ t = endStep (takeEvents s)) := by
  unfold step beginStep at h
  cases hd : (takeEvents s).stepDue with
  | true =>
    rw [hd, if_pos rfl] at h
    obtain ⟨u, hu, _⟩ := coreStep_keeps (takeEvents s)
    have hu' : runCycle (fetchDecode (takeEvents s)) = .next u := hu
    rw [hu'] at h
    exact .inl ⟨rfl, u, hu, by cases h; rfl⟩
  | false =>
    rw [hd, if_neg (by simp)] at h
    exact .inr ⟨rfl, by cases h; rfl⟩

/-- A step of the machine, where its tick has a step to run. -/
theorem step_of_due {s : State} (h : (takeEvents s).stepDue = true) :
    step s = mapNext endStep (coreStep (takeEvents s)) := by
  unfold step beginStep
  rw [if_pos h]
  rfl

/-- One more step of a run. -/
theorem run_next (n : Nat) {s t : State} (h : step s = .next t) :
    Host.Core.run Sys2Proof.core (n + 1) s = Host.Core.run Sys2Proof.core n t := by
  have h' : Sys2Proof.core.step s = .next t := h
  simp only [Host.Core.run, h']

theorem State.unmatched_withClock (s : State) (w : Word) (c : Option Clock) :
    (s.withClock c).unmatched w = (s.unmatched w).withClock c := by
  unfold State.unmatched
  rw [show (s.withClock c).params = s.params from rfl]
  cases s.params.unmatched <;> rfl

/-- step() does not read the clock. -/
theorem coreStep_withClock (s : State) (c : Option Clock) :
    coreStep (s.withClock c) = mapNext (State.withClock · c) (coreStep s) := by
  by_cases hf : s.faulted = none
  · cases hh : s.halted with
    | true =>
      rw [coreStep, coreStep, fetchDecode_halted hf hh, fetchDecode_halted (s := s.withClock c) hf hh]
      rfl
    | false =>
      by_cases hb : 4096 ≤ s.pc.toNat + 1
      · rw [coreStep, coreStep, fetchDecode_bounds hf hh hb, fetchDecode_bounds (s := s.withClock c) hf hh hb]
        rfl
      · have hc : CanFetch s := ⟨hf, hh, by omega⟩
        cases hd : decodeWord s.fetchWord with
        | ok i =>
          rw [coreStep, coreStep, fetchDecode_run hc hd, fetchDecode_run (s := s.withClock c) hc hd]
          exact exec_withClock i s.advance c
        | error e =>
          rw [coreStep, coreStep, fetchDecode_unmatched hc hd, fetchDecode_unmatched (s := s.withClock c) hc hd]
          exact congrArg Host.Outcome.next (s.advance.unmatched_withClock s.fetchWord c)
  · rw [coreStep, coreStep, fetchDecode_faulted hf, fetchDecode_faulted (s := s.withClock c) hf]
    rfl

end Sys2Proof.Machine
end

