-- ==== Sys2Proof/Tests/Slice0.lean ====
section
/-! SUPPORT. The model's own tests: what WellFormed refuses, a hand-written word of every row, single steps taken from
spec/95_test_vectors.md (the id of the vector stands before each test), and for every statement with hypotheses a
state and operands that meet them. -/

namespace Sys2Proof.Tests

open Sys2Proof Sys2Proof.Machine

/-! ## Helpers -/

/-- The state after reset with some registers set. -/
def start (rs : List (Reg × Byte)) : State := rs.foldl (fun s r => s.setV r.1 r.2) State.reset

/-- What f reads from the state after one step that runs the word w. -/
def after {α : Type} (f : State → α) (s : State) (w : Nat) : Option α :=
  match step (s.withFetchWord 16 w) with
  | .next t => some (f t)
  | .fault _ => none
  | .refused _ => none

/-- Some bytes placed at ascending addresses. -/
def poke (a : Nat) (bs : List Byte) (s : State) : State := (storeBytes bs a s).finish fun _ t => t

/-- Another OOR_ACCESS. -/
def oor (o : Config.OorAccess) (s : State) : State := { s with params := { s.params with oorAccess := o } }

/-- Another UNMATCHED_POLICY. -/
def policy (u : Config.UnmatchedPolicy) (s : State) : State := { s with params := { s.params with unmatched := u } }

/-! ## WellFormed: an ill-formed term for its check (30_encoding R56, R58) -/

theorem test_wf_refuses_sys_cls : wellFormed (.sys 0x0E0) = false := by decide
theorem test_wf_refuses_sys_ret : wellFormed (.sys 0x0EE) = false := by decide
theorem test_wf_takes_sys : wellFormed (.sys 0x123) = true := by decide

/-! ## Decode: one word of every row, its bits written out from 30_encoding R53, R56 -/

theorem test_decode_cls : decodeTableWord 16 0b0000000011100000 = some .cls := by decide
theorem test_decode_ret : decodeTableWord 16 0b0000000011101110 = some .ret := by decide
theorem test_decode_sys : decodeTableWord 16 0b0000000100100011 = some (.sys 0x123) := by decide
theorem test_decode_jp : decodeTableWord 16 0b0001001000110100 = some (.jp 0x234) := by decide
theorem test_decode_call : decodeTableWord 16 0b0010010001010110 = some (.call 0x456) := by decide
theorem test_decode_seByte : decodeTableWord 16 0b0011001101000010 = some (.seByte 3 0x42) := by decide
theorem test_decode_sneByte : decodeTableWord 16 0b0100111000000001 = some (.sneByte 14 0x01) := by decide
theorem test_decode_seReg : decodeTableWord 16 0b0101000100100000 = some (.seReg 1 2) := by decide
theorem test_decode_ldByte : decodeTableWord 16 0b0110101001011100 = some (.ldByte 10 0x5C) := by decide
theorem test_decode_addByte : decodeTableWord 16 0b0111001011110000 = some (.addByte 2 0xF0) := by decide
theorem test_decode_ldReg : decodeTableWord 16 0b1000000101010000 = some (.ldReg 1 5) := by decide
theorem test_decode_orReg : decodeTableWord 16 0b1000000101010001 = some (.orReg 1 5) := by decide
theorem test_decode_andReg : decodeTableWord 16 0b1000000101010010 = some (.andReg 1 5) := by decide
theorem test_decode_xorReg : decodeTableWord 16 0b1000000101010011 = some (.xorReg 1 5) := by decide
theorem test_decode_addReg : decodeTableWord 16 0b1000000100100100 = some (.addReg 1 2) := by decide
theorem test_decode_subReg : decodeTableWord 16 0b1000000100100101 = some (.subReg 1 2) := by decide
theorem test_decode_shr : decodeTableWord 16 0b1000000100100110 = some (.shr 1 2) := by decide
theorem test_decode_subn : decodeTableWord 16 0b1000000100100111 = some (.subn 1 2) := by decide
theorem test_decode_shl : decodeTableWord 16 0b1000000100101110 = some (.shl 1 2) := by decide
theorem test_decode_sneReg : decodeTableWord 16 0b1001000100100000 = some (.sneReg 1 2) := by decide
theorem test_decode_ldI : decodeTableWord 16 0b1010001100000000 = some (.ldI 0x300) := by decide
theorem test_decode_jpV0 : decodeTableWord 16 0b1011000100100011 = some (.jpV0 0x123) := by decide
theorem test_decode_rnd : decodeTableWord 16 0b1100001100001111 = some (.rnd 3 0x0F) := by decide
theorem test_decode_drw : decodeTableWord 16 0b1101000100101111 = some (.drw 1 2 15) := by decide
theorem test_decode_skp : decodeTableWord 16 0b1110001010011110 = some (.skp 2) := by decide
theorem test_decode_sknp : decodeTableWord 16 0b1110001010100001 = some (.sknp 2) := by decide
theorem test_decode_ldVxDt : decodeTableWord 16 0b1111000100000111 = some (.ldVxDt 1) := by decide
theorem test_decode_ldVxK : decodeTableWord 16 0b1111001100001010 = some (.ldVxK 3) := by decide
theorem test_decode_ldDt : decodeTableWord 16 0b1111000000010101 = some (.ldDt 0) := by decide
theorem test_decode_ldSt : decodeTableWord 16 0b1111010000011000 = some (.ldSt 4) := by decide
theorem test_decode_addI : decodeTableWord 16 0b1111001100011110 = some (.addI 3) := by decide
theorem test_decode_ldF : decodeTableWord 16 0b1111000000101001 = some (.ldF 0) := by decide
theorem test_decode_ldB : decodeTableWord 16 0b1111010100110011 = some (.ldB 5) := by decide
theorem test_decode_stRegs : decodeTableWord 16 0b1111000101010101 = some (.stRegs 1) := by decide
theorem test_decode_ldRegs : decodeTableWord 16 0b1111111101100101 = some (.ldRegs 15) := by decide

/-- E2, E5 and 30_encoding R58: words of no row. -/
theorem test_decode_unmatched :
    [0x5121, 0x8008, 0x800F, 0x9121, 0xE19F, 0xF0FF].map (decodeTableWord 16) = List.replicate 6 none := by decide

/-! ## Fetch, decode, dispatch -/

/-- E2: an unmatched word advances PC and nothing else. -/
theorem test_E2 : after (fun t => (t.pc, t.faulted, t.fresh)) State.reset 0x5121 = some (0x202, none, false) := by decide

/-- E3: under `refuse` the word is recorded. -/
theorem test_E3 : after (fun t => (t.pc, t.faulted)) (policy .refuse State.reset) 0x5121 =
    some (0x202, some (.refused 0x5121)) := by decide

/-- E6: the fetch at 0xFFF fails, PC stays, the log gains a record. -/
theorem test_E6 : (match step { State.reset with pc := 0xFFF } with
    | .next t => some (t.pc, t.outputs) | .fault _ => none | .refused _ => none) =
    some (0xFFF, [.fetchBoundsError 0xFFF, .dispClear]) := by decide

/-- E7: the fetch at 0xFFE succeeds. -/
theorem test_E7 : after (·.pc) { State.reset with pc := 0xFFE } 0x1200 = some 0x200 := by decide

/-- E9: a halted core does not fetch. -/
theorem test_E9 : (match step { State.reset with halted := true } with
    | .next t => some (t.pc, t.fresh) | .fault _ => none | .refused _ => none) = some (0x200, true) := by decide

/-- E10: an odd PC fetches. -/
theorem test_E10 : after (fun t => (t.getV 0, t.pc)) { State.reset with pc := 0x201 } 0x6007 = some (0x07, 0x203) := by
  decide

/-! ## Control flow -/

/-- CF8 -/
theorem test_cls : after (fun t => (t.disp, t.outputs, t.pc)) { State.reset with disp := [0, 7, 2047] } 0x00E0 =
    some ([], [.dispClear, .dispClear], 0x202) := by decide

/-- CF4: RET without a call. -/
theorem test_ret_wraps : after (fun t => (t.sp, t.pc)) State.reset 0x00EE = some (15, 0x000) := by decide

/-- CF5 -/
theorem test_ret : after (fun t => (t.sp, t.pc, t.stackAt 0)) (State.reset.push 0x206) 0x00EE =
    some (0, 0x206, 0x206) := by decide

/-- E4 -/
theorem test_sys : after (fun t => (t.pc, t.faulted)) State.reset 0x0123 = some (0x202, none) := by decide

/-- 40_control_flow R67 under `refuse`. -/
theorem test_sys_refuse : after (fun t => (t.pc, t.faulted)) (policy .refuse State.reset) 0x0123 =
    some (0x202, some (.refused 0x0123)) := by decide

/-- CF1 -/
theorem test_jp : after (·.pc) State.reset 0x1234 = some 0x234 := by decide

/-- CF2 -/
theorem test_call : after (fun t => (t.stackAt 3, t.sp, t.pc)) { State.reset with sp := 3 } 0x2456 =
    some (0x202, 4, 0x456) := by decide

/-- CF3 -/
theorem test_call_wraps : after (fun t => (t.stackAt 15, t.sp, t.pc)) { State.reset with sp := 15 } 0x2456 =
    some (0x202, 0, 0x456) := by decide

/-- CF6 -/
theorem test_jpV0 : after (·.pc) (start [(0, 0xFF)]) 0xB123 = some 0x222 := by decide

/-- CF7 -/
theorem test_jpV0_wraps : after (·.pc) (start [(0, 0x10)]) 0xBFF8 = some 0x008 := by decide

/-! ## Skips -/

/-- SK1 -/
theorem test_seByte : after (·.pc) (start [(3, 0x42)]) 0x3342 = some 0x204 := by decide

/-- SK2 -/
theorem test_seByte_not : after (·.pc) (start [(3, 0x41)]) 0x3342 = some 0x202 := by decide

/-- SK3 -/
theorem test_sneByte : after (·.pc) State.reset 0x4001 = some 0x204 := by decide

/-- SK4 -/
theorem test_sneByte_not : after (·.pc) (start [(0, 1)]) 0x4001 = some 0x202 := by decide

/-- SK5 -/
theorem test_seReg : after (·.pc) (start [(1, 7), (2, 7)]) 0x5120 = some 0x204 := by decide

/-- SK7 -/
theorem test_sneReg : after (·.pc) (start [(1, 7), (2, 8)]) 0x9120 = some 0x204 := by decide

/-- SK8 -/
theorem test_sneReg_same : after (·.pc) State.reset 0x9110 = some 0x202 := by decide

/-- SK9: a skip at the top of memory. -/
theorem test_skip_top : after (·.pc) { State.reset with pc := 0xFFE } 0x3000 = some 0x1002 := by decide

/-! ## Register operations -/

/-- RG1 -/
theorem test_ldByte : after (·.getV 10) State.reset 0x6A5C = some 0x5C := by decide

/-- RG3 -/
theorem test_addByte : after (fun t => (t.getV 2, t.getV VF)) (start [(2, 0xFF), (15, 0x07)]) 0x7201 =
    some (0x00, 0x07) := by decide

/-- RG4 -/
theorem test_addByte_vf : after (·.getV VF) (start [(15, 0xFE)]) 0x7F03 = some 0x01 := by decide

/-- RG5 -/
theorem test_ldReg : after (·.getV 1) (start [(5, 0x33)]) 0x8150 = some 0x33 := by decide

/-- RG6 -/
theorem test_orReg : after (fun t => (t.getV 0, t.getV VF)) (start [(0, 0x0F), (1, 0xF0), (15, 0x05)]) 0x8011 =
    some (0xFF, 0x05) := by decide

/-- RG7 -/
theorem test_andReg : after (·.getV 0) (start [(0, 0x3C), (1, 0x0F)]) 0x8012 = some 0x0C := by decide

/-- RG8 -/
theorem test_xorReg : after (·.getV 0) (start [(0, 0xFF), (1, 0x0F)]) 0x8013 = some 0xF0 := by decide

/-! ## Arithmetic with flags -/

/-- S1 -/
theorem test_addReg : after (fun t => (t.getV 1, t.getV VF)) (start [(1, 0xC8), (2, 0x64)]) 0x8124 = some (0x2C, 1) := by
  decide

/-- AR4: the result overwrites the carry. -/
theorem test_addReg_vf : after (·.getV VF) (start [(15, 0x80), (14, 0x90)]) 0x8FE4 = some 0x10 := by decide

/-- S2 -/
theorem test_subReg : after (fun t => (t.getV 1, t.getV VF)) (start [(1, 0x05), (2, 0x07)]) 0x8125 = some (0xFE, 0) := by
  decide

/-- AR10: the subtrahend is the flag just written. -/
theorem test_subReg_vf : after (fun t => (t.getV 1, t.getV VF)) (start [(1, 0x10), (15, 0x05)]) 0x81F5 =
    some (0x0F, 1) := by decide

/-- S3b -/
theorem test_subn : after (fun t => (t.getV 1, t.getV VF)) (start [(1, 0x07), (2, 0x05)]) 0x8127 = some (0xFE, 0) := by
  decide

/-- AR13: the minuend is V[Y], the subtrahend the flag just written. -/
theorem test_subn_vf : after (·.getV VF) (start [(15, 0x03), (14, 0x05)]) 0x8FE7 = some 0x04 := by decide

/-- AR17: the Y field is not read. -/
theorem test_shr : after (fun t => (t.getV 1, t.getV VF, t.getV 2)) (start [(1, 0xFF), (2, 0x00)]) 0x8126 =
    some (0x7F, 1, 0x00) := by decide

/-- AR18 -/
theorem test_shr_vf : after (·.getV VF) (start [(15, 0x03)]) 0x8FF6 = some 0x00 := by decide

/-- S5 -/
theorem test_shl : after (fun t => (t.getV 1, t.getV VF)) (start [(1, 0x81)]) 0x811E = some (0x02, 1) := by decide

/-- AR21 -/
theorem test_shl_vf : after (·.getV VF) (start [(15, 0x81)]) 0x8FFE = some 0x02 := by decide

/-! ## Index register operations -/

/-- IX1 -/
theorem test_ldI : after (·.i) State.reset 0xA300 = some 0x300 := by decide

/-- IX2 -/
theorem test_addI : after (fun t => (t.i, t.getV VF)) { start [(3, 0x20)] with i := 0xFF0 } 0xF31E =
    some (0x010, 0) := by decide

/-- IX3 -/
theorem test_addI_wraps : after (·.i) { start [(0, 0x01)] with i := 0xFFF } 0xF01E = some 0x000 := by decide

/-- IX4 -/
theorem test_ldF : after (·.i) (start [(0, 0x0A)]) 0xF029 = some 0x032 := by decide

/-- IX6: not masked. -/
theorem test_ldF_high : after (·.i) (start [(0, 0xFF)]) 0xF029 = some 0x4FB := by decide

/-! ## Random -/

/-- RN1: the low bits of the draw; a draw of 0xB6 gives 0x06. -/
theorem test_rnd : after (·.getV 3) State.reset 0xC30F = some (Config.randomByte 0 &&& 0x0F) ∧ 0xB6#8 &&& 0x0F = 0x06 :=
  ⟨rfl, by decide⟩

/-- RN2: for every draw. -/
theorem test_rnd_zero : after (·.getV 3) State.reset 0xC300 = some 0x00#8 := by
  have hs : after (·.getV 3) State.reset 0xC300 = some (Config.randomByte 0 &&& 0x00#8) := rfl
  rw [hs, BitVec.and_zero]

/-! ## Sprite draw -/

/-- DR3: a row that runs past the right edge. -/
theorem test_drw : after (fun t => (t.disp, t.getV VF)) (start [(0, 62)]) 0xD011 = some ([62, 63, 64, 65], 0) := by decide

/-- DR8: OOR_ACCESS = wrap. -/
theorem test_drw_wrap : after (fun t => (t.disp, t.getV VF))
    { poke 0xFFE [0x80, 0x80] (oor .wrap State.reset) with i := 0xFFE } 0xD013 =
    some ([0, 64, 128, 129, 130, 131], 0) := by decide

/-! ## Input -/

/-- IN1 -/
theorem test_skp : after (·.pc) ((start [(2, 5)]).setKey 5 true) 0xE29E = some 0x204 := by decide

/-- IN2 -/
theorem test_skp_not : after (·.pc) ((start [(2, 5)]).setKey 5 false) 0xE29E = some 0x202 := by decide

/-- IN3 -/
theorem test_sknp : after (·.pc) ((start [(2, 5)]).setKey 5 false) 0xE2A1 = some 0x204 := by decide

/-- IN5 -/
theorem test_ldVxK : after (fun t => (t.halted, t.keyWait, t.pc, t.getV 3)) State.reset 0xF30A =
    some (true, some 3, 0x202, 0) := by decide

/-- IN6: the key arrives before the next step. -/
theorem test_key_delivered : (match step { State.reset with
      halted := true, keyWait := some 3, pc := 0x202, pending := [.keyPress 0xB] } with
    | .next t => some (t.getV 3, t.keyWait, t.halted) | .fault _ => none | .refused _ => none) =
    some (0x0B, none, false) := by decide

/-! ## Timers -/

/-- TM1 -/
theorem test_ldVxDt : after (·.getV 1) { State.reset with dt := 0x3C } 0xF107 = some 0x3C := by decide

/-- TM2 -/
theorem test_ldDt : after (·.dt) (start [(0, 3)]) 0xF015 = some 3 := by decide

/-- TM3 -/
theorem test_ldSt : after (fun t => (t.st, t.outputs)) (start [(4, 1)]) 0xF418 = some (1, [.dispClear]) := by decide

/-- S10: the last step of a tick is followed by the timer update. -/
theorem test_tone : after (fun t => (t.st, t.outputs))
    { State.reset with st := 1, clock := some { rateHz := 60, perTick := 10, done := 9 } } 0x1200 =
    some (0, [.stopTone, .startTone, .dispClear]) := by decide

/-- 70_reset_and_hazards R138: no timer moves inside the batch. -/
theorem test_no_tone_inside : after (fun t => (t.st, t.dt))
    { State.reset with st := 1, dt := 5, clock := some { rateHz := 60, perTick := 10, done := 8 } } 0x1200 =
    some (1, 5) := by decide

/-! ## BCD and block transfer -/

/-- S11 -/
theorem test_ldB : after (fun t => ([0x300, 0x301, 0x302, 0x303].map t.byteAt, t.i)) { start [(0, 0xEA)] with i := 0x300 }
    0xF033 = some ([2, 3, 4, 0], 0x300) := by decide

/-- BT4: the third digit is out of range. -/
theorem test_ldB_fault : after (fun t => (t.byteAt 0xFFE, t.byteAt 0xFFF, t.faulted, t.pc))
    { start [(5, 7)] with i := 0xFFE } 0xF533 = some (0, 0, some (.outOfRange 0x1000), 0x202) := by decide

/-- BT5 -/
theorem test_stRegs : after (fun t => ([0x300, 0x301, 0x302].map t.byteAt, t.i))
    { start [(0, 0x12), (1, 0x34)] with i := 0x300 } 0xF155 = some ([0x12, 0x34, 0], 0x300) := by decide

/-- BT7, one register: V0 at 0xFFF, then 0x1000 faults. -/
theorem test_stRegs_fault : after (fun t => (t.byteAt 0xFFF, t.faulted)) { start [(0, 9), (1, 8)] with i := 0xFFF }
    0xF155 = some (9, some (.outOfRange 0x1000)) := by decide

/-- BT8 -/
theorem test_ldRegs : after (fun t => (t.getV 0, t.getV 1, t.getV 2)) State.reset 0xF165 = some (0xF0, 0x90, 0) := by
  decide

/-- BT9, at VF. -/
theorem test_ldRegs_vf : after (fun t => (t.getV 14, t.getV VF)) { poke 0x30E [0x1E, 0x1F] State.reset with i := 0x300 }
    0xFF65 = some (0x1E, 0x1F) := by decide

/-! ## Host operations -/

/-- H1 -/
theorem test_load_empty : (hostLoad (some []) State.reset).1 = .empty := by decide

/-- H3 -/
theorem test_load_late : (hostLoad (some [0x12, 0x00]) { State.reset with fresh := false }).1 = .memoryCorrupt := by decide

/-- S9: load, then one step. -/
theorem test_S9 : (match step { State.reset with pending := [.loadProgram (some [0x60, 0x05])] } with
    | .next t => some (t.getV 0, t.pc, t.outputs) | .fault _ => none | .refused _ => none) =
    some (5, 0x202, [.loadReturned .ok, .dispClear]) := by decide

/-- H5: the glyph A after reset() (70_reset_and_hazards R131, 10_state R32). -/
theorem test_reset_font : [0x032, 0x033, 0x034, 0x035, 0x036].map State.reset.byteAt = [0xF0, 0x90, 0xF0, 0x90, 0x90] := by
  decide

/-- H7 -/
theorem test_reset_faulted : (hostReset { State.reset with faulted := some (.outOfRange 0x1000) }).faulted = none := rfl

/-! ## Witnesses: for each statement with hypotheses, a state and operands that meet them -/

/-- A state in mid-run: registers, I, PC and a stack entry set, a pixel set, a byte of memory written. -/
def busy : State :=
  { poke 0x300 [0xAB] (start [(0, 0x60), (1, 0x05), (2, 0xFF), (3, 0x10), (15, 0x01)]) with
    i := 0x300, pc := 0x204, sp := 1, disp := [0, 5], dt := 2, st := 3, fresh := false }

/-- `busy`, halted. -/
def paused : State := { busy with halted := true }

/-- `busy`, waiting for a key for V15. -/
def waiting : State := { busy with halted := true, keyWait := some 15 }

/-- `busy`, frozen. -/
def frozen : State := { busy with faulted := some (.outOfRange 0x1000) }

/-- `busy` with PC at an address no word can be fetched from. -/
def stuck (pc : Word) : State := { busy with pc := pc }

/-- `busy` with the word w at PC. -/
def atPc (w : Nat) : State := placeBytes busy (tableBytes 16 w)

/-- For the DecodesAs clauses: every row's pattern meets the row's mask. -/
theorem witness_DecodesAs : ∀ r ∈ opcodeTable, r.pattern &&& r.mask = r.pattern := by decide

theorem witness_DecodeOfEncode : wellFormed (.sys 0x0EF) = true ∧ wellFormed (.drw 15 15 15) = true := by decide

theorem witness_EncodeOfDecode : decodeWord 0x0123 = .ok (.sys 0x123) ∧ decodeWord 0x8FFE = .ok (.shl 15 15) := ⟨rfl, rfl⟩

/-- A word for each clause, and its neighbours that decode. -/
theorem witness_UnmatchedWordsByNibble :
    decodeWord (wordXYN 5 1 2 1) = .error (.unmatched 0x5121) ∧ decodeWord (wordXYN 5 1 2 0) = .ok (.seReg 1 2) ∧
    decodeWord (wordXYN 9 1 2 15) = .error (.unmatched 0x912F) ∧ decodeWord (wordXYN 9 1 2 0) = .ok (.sneReg 1 2) ∧
    decodeWord (wordXYN 8 1 2 8) = .error (.unmatched 0x8128) ∧ decodeWord (wordXYN 8 1 2 7) = .ok (.subn 1 2) ∧
    decodeWord (wordXYN 8 1 2 15) = .error (.unmatched 0x812F) ∧ decodeWord (wordXYN 8 1 2 14) = .ok (.shl 1 2) ∧
    decodeWord (wordXYN 14 1 9 15) = .error (.unmatched 0xE19F) ∧ decodeWord (wordXYN 14 1 9 14) = .ok (.skp 1) ∧
    decodeWord (wordXYN 15 1 6 6) = .error (.unmatched 0xF166) ∧ decodeWord (wordXYN 15 1 6 5) = .ok (.ldRegs 1) :=
  ⟨rfl, rfl, rfl, rfl, rfl, rfl, rfl, rfl, rfl, rfl, rfl, rfl⟩

/-- CLS and RET overlap SYS. -/
theorem witness_OnlySysOverlaps : ∃ q q' r, opcodeTable[0]? = some q ∧ opcodeTable[1]? = some q' ∧
    opcodeTable[2]? = some r ∧ rowMatches q 0x00E0 = true ∧ rowMatches r 0x00E0 = true ∧
    rowMatches q' 0x00EE = true ∧ rowMatches r 0x00EE = true :=
  ⟨_, _, _, rfl, rfl, rfl, rfl, rfl, rfl, rfl⟩

/-- A state for each clause: frozen, halted, PC at 0xFFF (and at its last reachable value 0x1002), and at 0xFFE, the last
address a word is fetched from. -/
theorem witness_StepCycle :
    frozen.faulted ≠ none ∧ (paused.faulted = none ∧ paused.halted = true) ∧
    ((stuck 0xFFF).faulted = none ∧ (stuck 0xFFF).halted = false ∧ (stuck 0xFFF).pc.toNat + 1 ≥ 4096) ∧
    ((stuck 0x1002).faulted = none ∧ (stuck 0x1002).halted = false ∧ (stuck 0x1002).pc.toNat + 1 ≥ 4096) ∧
    (stuck 0xFFE).pc.toNat + 1 < 4096 := by decide

theorem witness_CanFetch : CanFetch (stuck 0xFFE) ∧ CanFetch (atPc 0x8124) ∧ CanFetch (atPc 0x5121) :=
  ⟨⟨rfl, rfl, by decide⟩, ⟨rfl, rfl, by decide⟩, ⟨rfl, rfl, by decide⟩⟩

theorem witness_StepCycle_words :
    decodeWord ((atPc 0x8124).byteAt (atPc 0x8124).pc.toNat ++ (atPc 0x8124).byteAt ((atPc 0x8124).pc.toNat + 1)) =
      .ok (.addReg 1 2) ∧
    decodeWord ((atPc 0x5121).byteAt (atPc 0x5121).pc.toNat ++ (atPc 0x5121).byteAt ((atPc 0x5121).pc.toNat + 1)) =
      .error (.unmatched 0x5121) := ⟨rfl, rfl⟩

/-- The same state with a waiting key press and a running loop, at the start of a tick. -/
def ticking : State :=
  { atPc 0x8124 with pending := [.keyPress 7], clock := some { rateHz := 60, perTick := 10, done := 0 } }

theorem witness_StepRunsDecodedInstruction :
    (takeEvents ticking).stepDue = true ∧ CanFetch (takeEvents ticking) ∧
    decode [(takeEvents ticking).byteAt (takeEvents ticking).pc.toNat,
      (takeEvents ticking).byteAt ((takeEvents ticking).pc.toNat + 1)] = .ok (.addReg 1 2, []) :=
  ⟨rfl, ⟨rfl, rfl, by decide⟩, rfl⟩

theorem witness_QuietStepIsOneStep : Quiet busy := ⟨rfl, rfl⟩

theorem witness_UnmatchedWordStep :
    (atPc 0x5121).params.unmatched = .noop ∧ CanFetch (policy .refuse (atPc 0x5121)) ∧
    (policy .refuse (atPc 0x5121)).params.unmatched = .refuse := ⟨rfl, ⟨rfl, rfl, by decide⟩, rfl⟩

theorem witness_FetchFailureIsStuck : (stuck 0x1002).faulted = none ∧ (stuck 0x1002).halted = false ∧
    (stuck 0x1002).pc.toNat + 1 ≥ 4096 := by decide

/-- HaltedTickOnlyCountsTimers: a halted state, and one that is also frozen. -/
theorem witness_HaltedTick : paused.halted = true ∧ { frozen with halted := true }.halted = true := ⟨rfl, rfl⟩

theorem witness_FaultedStateIsFrozen :
    frozen.faulted ≠ none ∧ HostEvent.keyPress 5 ≠ .reset ∧ HostEvent.loadProgram (some [1]) ≠ .reset :=
  ⟨Option.some_ne_none _, HostEvent.noConfusion, HostEvent.noConfusion⟩

/-- The words next to CLS and RET, and the ends of the range. -/
theorem witness_SysIsAnUnmatchedWord : ([0x0000, 0x00DF, 0x00E1, 0x00ED, 0x00EF, 0x0FFF] : List Word).all
    (fun w => decide (w &&& 0xF000 = 0x0000 ∧ w ≠ 0x00E0 ∧ w ≠ 0x00EE)) = true := by decide

theorem witness_SysPolicies : busy.params.unmatched = .noop ∧ (policy .refuse busy).params.unmatched = .refuse := ⟨rfl, rfl⟩

theorem witness_RetUndoesCall : ∃ t, exec (.call 0x300) { busy with sp := 15 } = .next t ∧ t.sp = 0 ∧
    t.stackAt 15 = 0x204 := ⟨_, rfl, rfl, rfl⟩

/-- A run of CALLs, each from PC = 0x202. -/
def calls : Nat → State
  | 0 => { busy with sp := 7 }
  | n + 1 => (State.push { calls n with pc := 0x202 } 0x202).jump (addrOperand 0x200)

theorem witness_SeventeenthCall : ∀ k, exec (.call 0x200) { calls k with pc := 0x202 } = .next (calls (k + 1)) :=
  fun _ => rfl

/-- A code of 15, the last one with a key, and 16 and 255. -/
theorem witness_KeySkips : ((start [(0, 15)]).getV 0).toNat = (15#4).toNat ∧ 15 < ((start [(0, 16)]).getV 0).toNat ∧
    15 < (busy.getV 2).toNat := by decide

/-- The flag clauses (X not 15) and the clauses with VF as an operand: SUB V2, V3 borrows not, SUB VF, V3 borrows. -/
theorem witness_SubSetsNoBorrow : (2 : Reg) ≠ VF ∧
    (1 = if (busy.getV 2).toNat ≥ (busy.getV 3).toNat then 1 else 0) ∧
    (0 = if (busy.getV VF).toNat ≥ (busy.getV 3).toNat then 1 else 0) := by decide

/-- SUBN V2, V3 borrows, SUBN VF, V3 does not. -/
theorem witness_SubnSetsNoBorrow : (2 : Reg) ≠ VF ∧
    (0 = if (busy.getV 3).toNat ≥ (busy.getV 2).toNat then 1 else 0) ∧
    (1 = if (busy.getV 3).toNat ≥ (busy.getV VF).toNat then 1 else 0) := by decide

/-- AddSetsCarry and ShiftsInPlace: X is not 15. -/
theorem witness_flag_destination : (0 : Reg) ≠ VF ∧ (14 : Reg) ≠ VF := by decide

theorem witness_WriteThenRead : Memory.wf busy.mem = true ∧ 0xFFF < 4096 := by decide

/-- LdBStoresDigits and LdIVxStoresRegisters: memory in canonical form under each value of OOR_ACCESS. -/
theorem witness_StoresBlock : Memory.wf busy.mem = true ∧ busy.params.oorAccess = .fault ∧
    Memory.wf (oor .wrap busy).mem = true ∧ (oor .wrap busy).params.oorAccess = .wrap ∧
    Memory.wf (oor .drop busy).mem = true ∧ (oor .drop busy).params.oorAccess = .drop := by decide

/-- Where the clauses of StoresBlock meet: three bytes from 0xFFD end at 0xFFF, from 0xFFE the third is out of range. -/
theorem witness_StoresBlock_edge : 0xFFD + 3 ≤ 4096 ∧ ¬ 0xFFE + 3 ≤ 4096 ∧ 0xFFE + 1 < 4096 ∧ ¬ 0xFFE + 2 < 4096 := by decide

/-- LdVxILoadsRegisters, where the clauses of LoadsBlock meet: X = 1 at I = 0xFFF under each value of OOR_ACCESS. -/
theorem witness_LoadsBlock : ((0#4).toNat ≤ (1#4).toNat ∧ 0xFFF + (0#4).toNat < 4096) ∧
    ((1#4).toNat ≤ (1#4).toNat ∧ 4096 ≤ 0xFFF + (1#4).toNat) ∧ (1#4).toNat < (2#4).toNat ∧
    { busy with i := 0xFFF }.i.toNat = 0xFFF ∧ { busy with i := 0xFFF }.params.oorAccess = .fault ∧
    { oor .wrap busy with i := 0xFFF }.params.oorAccess = .wrap ∧
    { oor .drop busy with i := 0xFFF }.params.oorAccess = .drop := by decide

/-- The registers a block names, X = 0 and X = 15. -/
theorem witness_LdIVxStoresRegisters :
    (([0x60] : List Byte).length = (0#4).toNat + 1 ∧
      ∀ k : Reg, k.toNat ≤ (0#4).toNat → ([0x60] : List Byte)[k.toNat]? = some (busy.getV k)) ∧
    ((busy.v.toList).length = (15#4).toNat + 1 ∧
      ∀ k : Reg, k.toNat ≤ (15#4).toNat → busy.v.toList[k.toNat]? = some (busy.getV k)) := by decide

/-- A block that ends at 0xFFF. -/
theorem witness_LoadUndoesStore : Memory.wf { busy with i := 0xFF0 }.mem = true ∧
    { busy with i := 0xFF0 }.i.toNat + (15#4).toNat < 4096 ∧
    ∃ t, exec (.stRegs 15) { busy with i := 0xFF0 } = .next t := ⟨by decide, by decide, _, rfl⟩

/-- The two bytes 60 05 stored at the last fetchable PC. -/
theorem witness_StoredWordIsFetchedNext : Memory.wf (stuck 0xFFE).mem = true ∧ 1 ≤ (1#4).toNat ∧
    { stuck 0xFFE with i := 0xFFE }.i = { stuck 0xFFE with i := 0xFFE }.pc ∧ (stuck 0xFFE).pc.toNat + (1#4).toNat < 4096 ∧
    (∃ t, exec (.stRegs 1) { stuck 0xFFE with i := 0xFFE } = .next t ∧ t.faulted = none ∧ t.halted = false) ∧
    decodeWord ((stuck 0xFFE).getV 0 ++ (stuck 0xFFE).getV 1) = .ok (.ldByte 0 0x05) :=
  ⟨by decide, by decide, rfl, by decide, ⟨_, rfl, rfl, rfl⟩, rfl⟩

/-- DrwTogglesSprite: N = 0 at any I; the last sprite byte at 0xFFF; past the end under `wrap` and `drop`. -/
theorem witness_DrwTogglesSprite : 0 < busy.params.displayHeight ∧ Bitmap.wf busy.pixels busy.disp = true ∧
    { busy with i := 0xFF1 }.i.toNat + (15#4).toNat ≤ 4096 ∧
    (oor .wrap busy).params.oorAccess ≠ .fault ∧ (oor .drop busy).params.oorAccess ≠ .fault := by decide

/-- A sprite that finds a pixel set (5, 0), and one that finds none; the font's glyph 0 at (4, 0) and at (4, 8). -/
theorem witness_Collides : Collides { busy with i := 0 } (spritePoints { busy with i := 0 } 0 4 0 5) :=
  ⟨[(4, 0)], (5, 0), _, rfl, rfl⟩

theorem witness_DrwOnFlatScreen : busy.params.displayMap = .flatModular ∧ 15 ≤ busy.params.displayHeight ∧
    (∃ q ∈ spritePoints { busy with i := 0 } 0 4 0 5, { busy with i := 0 }.pixel ({ busy with i := 0 }.pixelOf q) = true) ∧
    (∀ q ∈ spritePoints { busy with i := 0 } 0 4 8 5, { busy with i := 0 }.pixel ({ busy with i := 0 }.pixelOf q) = false) ∧
    ∃ t, exec (.drw 3 3 5) { busy with i := 0 } = .next t := ⟨rfl, by decide, by decide, by decide, _, rfl⟩

/-- The first drawing on a clear display, then the second. -/
theorem witness_DrwTwiceRestores : (3 : Reg) ≠ VF ∧ { busy with i := 0, disp := [] }.disp = [] ∧
    spritePoints { busy with i := 0, disp := [] } 0 0x10 0x10 5 ≠ [] ∧
    ∃ t u, exec (.drw 3 3 5) { busy with i := 0, disp := [] } = .next t ∧ exec (.drw 3 3 5) t = .next u :=
  ⟨by decide, rfl, by decide, _, _, rfl, rfl⟩

/-- One row in range, and none (I = 0x1000). -/
theorem witness_DrwFaults : busy.params.oorAccess = .fault ∧
    ((3 : Nibble) ≠ 0 ∧ 4096 < { busy with i := 0xFFE }.i.toNat + (3#4).toNat ∧
      (2#4).toNat = 4096 - { busy with i := 0xFFE }.i.toNat) ∧
    ((1 : Nibble) ≠ 0 ∧ 4096 < { busy with i := 0x1000 }.i.toNat + (1#4).toNat ∧
      (0#4).toNat = 4096 - { busy with i := 0x1000 }.i.toNat) := by decide

theorem witness_OnlyFlagWriters : ∃ t, exec (.shl 2 0) { busy with v := busy.v.set 15 0 } = .next t ∧
    t.getV VF ≠ { busy with v := busy.v.set 15 0 }.getV VF := ⟨_, rfl, by decide⟩

theorem witness_OnlyIndexOps : ∃ t, exec (.ldF 2) busy = .next t ∧ t.i ≠ busy.i := ⟨_, rfl, by decide⟩

theorem witness_OnlyCallAndRet : (∃ t, exec (.call 0x300) busy = .next t ∧ (∃ j, t.stackAt j ≠ busy.stackAt j) ∧
    t.sp ≠ busy.sp) ∧ ∃ t, exec .ret busy = .next t ∧ t.sp ≠ busy.sp :=
  ⟨⟨_, rfl, ⟨1, by decide⟩, by decide⟩, _, rfl, by decide⟩

theorem witness_OnlyMemoryWriters : ∃ t, exec (.ldB 2) busy = .next t ∧ ∃ a, t.byteAt a ≠ busy.byteAt a :=
  ⟨_, rfl, 0x300, by decide⟩

theorem witness_TimersStayWithinBatch : ∃ t, coreStep (atPc 0xF015) = .next t ∧ (t.dt ≠ (atPc 0xF015).dt ∨ t.st ≠ (atPc 0xF015).st) :=
  ⟨_, rfl, by decide⟩

/-- Timers above, at and below 1. -/
theorem witness_TimerUpdateCounts : busy.faulted = none ∧ busy.st.toNat = 3 ∧ 0 < 3 ∧ { busy with st := 1 }.st.toNat = 1 ∧
    { busy with st := 0 }.st.toNat = 0 := by decide

theorem witness_SoundTimerTones : busy.faulted = none ∧ busy.st.toNat = 3 ∧ 0 < 3 := by decide

theorem witness_StepsOfATick : { ticking with pending := [] }.pending = [] ∧
    ticking.clock = some { rateHz := 60, perTick := 10, done := 0 } ∧ 0 < 10 := ⟨rfl, rfl, by decide⟩

/-- ResetFromAnyState: the addresses where its clauses meet; StartStateIsResetState: the default parameters. -/
theorem witness_Reset : frozen.params.font[79]? = some 0x80 ∧ 80 ≤ 80 ∧ 4095 < 4096 ∧
    frozen.params = Config.defaultParams := by decide

/-- A state in mid-run meets the invariant, and so does one inside a tick; each has a step. -/
theorem witness_StepKeepsInvariant : Machine.Invariant busy ∧ Machine.Invariant ticking ∧ (∃ t, step busy = .next t) ∧
    ∃ t, step ticking = .next t :=
  ⟨⟨by decide, by decide, by decide, by decide, by decide, by decide, fun _ h => by cases h⟩,
    ⟨by decide, by decide, by decide, by decide, by decide, by decide, fun c h => by cases h; exact .inl rfl⟩,
    ⟨_, rfl⟩, ⟨_, rfl⟩⟩

/-- A key awaited, and none; a frozen state. -/
theorem witness_KeyPressDelivers : waiting.faulted = none ∧ waiting.keyWait = some 15 ∧ busy.keyWait = none ∧
    frozen.faulted ≠ none ∧ (3 : BitVec 4) ≠ 4 := by decide

theorem witness_PauseAndResume : frozen.faulted ≠ none ∧ waiting.faulted = none ∧ waiting.keyWait = some 15 := by decide

/-- LoadProgramWritesFrom200: a state for each clause, and a load of 3584 bytes fits, one of 3585 does not. -/
theorem witness_LoadProgram : busy.faulted = none ∧ Memory.wf busy.mem = true ∧ busy.fresh = false ∧
    State.reset.faulted = none ∧ Memory.wf State.reset.mem = true ∧ State.reset.fresh = true ∧
    State.reset.params.oorAccess = .fault := by decide

theorem witness_LoadProgram_lengths : (List.replicate 3584 (1 : Byte)).length ≤ 3584 ∧
    3584 < (List.replicate 3585 (1 : Byte)).length ∧ List.replicate 3584 (1 : Byte) ≠ [] := by
  rw [List.length_replicate, List.length_replicate]
  exact ⟨by decide, by decide, List.cons_ne_nil _ _⟩

theorem witness_LoadedProgramStarts : (List.replicate 3582 (1 : Byte)).length ≤ 3582 ∧
    decodeWord ((0x60#8) ++ (0x05#8)) = .ok (.ldByte 0 0x05) :=
  ⟨Nat.le_of_eq List.length_replicate, rfl⟩

/-- Inside a tick; at the start of one; where no loop runs. -/
theorem witness_EventsLand :
    ({ ticking with clock := some { rateHz := 60, perTick := 10, done := 1 } }.clock =
      some { rateHz := 60, perTick := 10, done := 1 } ∧ (1 : Nat) ≠ 0) ∧
    ticking.atBoundary = true ∧ ticking.pending = .keyPress 7 :: [] ∧
    { busy with pending := [.pause] }.atBoundary = true ∧ ∃ t, step ticking = .next t :=
  ⟨⟨rfl, by decide⟩, rfl, rfl, rfl, _, rfl⟩

end Sys2Proof.Tests
end

/-! The store instructions of 49_bcd_block, LD B and LD [I]: each stores a short list of bytes, and what such a run of
stores leaves is said once, as `StoresBlock`. -/

namespace Sys2Proof.Machine

/-! ## Where a store goes (20_memory R46) -/

theorem storeTarget_inRange (p : Config.Params) {a : Nat} (h : a < 4096) : storeTarget p a = some a := if_pos h

theorem storeTarget_wrap {p : Config.Params} (hp : p.oorAccess = .wrap) (a : Nat) :
    storeTarget p a = some (a % 4096) := by
  by_cases h : a < 4096
  · rw [storeTarget_inRange p h, Nat.mod_eq_of_lt h]
  · simp [storeTarget, h, hp]

/-! ## What a run of stores leaves -/

theorem wf_finish_storeBytes (bytes : List Byte) (a : Nat) {s : State} (hw : Memory.wf s.mem = true) :
    Memory.wf ((storeBytes bytes a s).finish fun _ t => t).mem = true := by
  rw [finish_storeBytes]
  exact storedMem_wf s.params bytes a hw

/-- A block that is not empty and fits in memory is stored as 20_memory R46 and 60_exceptions R111 say: no byte of it is
overwritten by a later one, even under `wrap`. -/
theorem storesBlock_finish_storeBytes {bytes : List Byte} (a : Nat) {s : State} (hw : Memory.wf s.mem = true)
    (hne : bytes ≠ []) (hl : bytes.length ≤ 4096) :
    StoresBlock bytes a s ((storeBytes bytes a s).finish fun _ t => t) := by
  have hread : ∀ {k c b}, bytes[k]? = some b → storeTarget s.params (a + k) = some c →
      Memory.read (storedMem s.params bytes a s.mem) c = b := read_storedMem s.params bytes a hw (.inl hl)
  rw [finish_storeBytes]
  constructor
  case inRange => exact fun k b hb hk => hread hb (storeTarget_inRange s.params hk)
  case fault =>
    intro hp
    by_cases hfits : a + bytes.length ≤ 4096
    · simp [hfits, Nat.not_lt.mpr hfits]
    · simp [hfits, Nat.lt_of_not_le hfits, hne, hp]
  case wrap => exact fun hp => ⟨by simp [hp], fun k b hb => hread hb (storeTarget_wrap hp (a + k))⟩
  case drop =>
    intro hp
    simp [hp]
  case frame => exact Frame.ofStores s bytes a hw rfl

/-! ## LD B, Vx (49_bcd_block R106) -/

theorem exec_ldB (x : Reg) (s : State) :
    exec (.ldB x) s = .next ((storeBytes (bcdDigits (s.getV x)) s.i.toNat s).finish fun _ t => t) := rfl

/-- The digits of `bcdDigits` are the decimal digits of the byte; the two low ones are below 10. -/
theorem bcdDigits_spec (b : Byte) :
    ∃ h d u : Byte, bcdDigits b = [h, d, u] ∧ b.toNat = 100 * h.toNat + 10 * d.toNat + u.toNat ∧
      d.toNat < 10 ∧ u.toNat < 10 := by
  refine ⟨_, _, _, rfl, ?_⟩
  have hb : b.toNat < 256 := b.isLt
  simp only [BitVec.toNat_ofNat]
  omega

theorem decodesAs_ldB : DecodesAs 0xF0FF 0xF033 (fun f => .ldB f.x) :=
  fun _ hw => decodeWord_of_index 32 rfl (by decide) hw

/-- Settles O35: LD B is a run of stores of `bcdDigits`. -/
theorem ldBStoresDigits : Obligations.LdBStoresDigits := by
  unfold Obligations.LdBStoresDigits
  refine ⟨decodesAs_ldB, fun x s hw => ?_⟩
  obtain ⟨h, d, u, hdigits, hsum, hd, hu⟩ := bcdDigits_spec (s.getV x)
  refine ⟨_, exec_ldB x s, wf_finish_storeBytes _ _ hw, h, d, u, hsum, hd, hu, ?_⟩
  rw [hdigits]
  exact storesBlock_finish_storeBytes _ hw (List.cons_ne_nil _ _) (by simp)

/-! ## LD [I], Vx (49_bcd_block R107) -/

theorem exec_stRegs (x : Reg) (s : State) :
    exec (.stRegs x) s = .next ((storeBytes (s.regsUpTo x) s.i.toNat s).finish fun _ t => t) := rfl

@[simp] theorem State.length_regsUpTo (s : State) (x : Reg) : (s.regsUpTo x).length = x.toNat + 1 := by
  simp [State.regsUpTo]

theorem State.getElem?_regsUpTo (s : State) {x k : Reg} (h : k.toNat ≤ x.toNat) :
    (s.regsUpTo x)[k.toNat]? = some (s.getV k) := by
  simp [State.regsUpTo, Nat.lt_succ_of_le h]

/-- `regsUpTo` is the one list of the length X + 1 with V[k] at place k. -/
theorem State.eq_regsUpTo {s : State} {x : Reg} {bytes : List Byte} (hlen : bytes.length = x.toNat + 1)
    (hget : ∀ k : Reg, k.toNat ≤ x.toNat → bytes[k.toNat]? = some (s.getV k)) : bytes = s.regsUpTo x := by
  refine List.ext_getElem? fun j => ?_
  by_cases hj : j ≤ x.toNat
  · have hk : (BitVec.ofNat 4 j).toNat = j := Nat.mod_eq_of_lt (Nat.lt_of_le_of_lt hj x.isLt)
    have hle : (BitVec.ofNat 4 j).toNat ≤ x.toNat := hk.symm ▸ hj
    rw [← hk, hget _ hle, s.getElem?_regsUpTo hle]
  · rw [List.getElem?_eq_none (by omega), List.getElem?_eq_none (by rw [State.length_regsUpTo]; omega)]

theorem decodesAs_stRegs : DecodesAs 0xF0FF 0xF055 (fun f => .stRegs f.x) :=
  fun _ hw => decodeWord_of_index 33 rfl (by decide) hw

/-- Settles O36: LD [I] is a run of stores of `State.regsUpTo`. -/
theorem ldIVxStoresRegisters : Obligations.LdIVxStoresRegisters := by
  unfold Obligations.LdIVxStoresRegisters
  refine ⟨decodesAs_stRegs, fun x s bytes hw hlen hget => ?_⟩
  have hx : x.toNat < 16 := x.isLt
  rw [State.eq_regsUpTo hlen hget]
  refine ⟨_, exec_stRegs x s, wf_finish_storeBytes _ _ hw, storesBlock_finish_storeBytes _ hw ?_ ?_⟩
  · exact List.ne_nil_of_length_pos (by simp)
  · rw [State.length_regsUpTo]
    omega

end Sys2Proof.Machine

/-! step() of 30_encoding R59: one equation of `coreStep` per outcome, in the order of its checks, and the states that
steps and ticks leave alone. -/

namespace Sys2Proof.Machine

/-! ## The outcomes of step() (30_encoding R59) -/

theorem coreStep_faulted {s : State} (h : s.faulted ≠ none) : coreStep s = .next s :=
  congrArg runCycle (fetchDecode_faulted h)

theorem coreStep_halted {s : State} (hf : s.faulted = none) (hh : s.halted = true) : coreStep s = .next s :=
  congrArg runCycle (fetchDecode_halted hf hh)

theorem coreStep_bounds {s : State} (hf : s.faulted = none) (hh : s.halted = false) (hb : 4096 ≤ s.pc.toNat + 1) :
    coreStep s = .next (s.emit (.fetchBoundsError s.pc)) :=
  congrArg runCycle (fetchDecode_bounds hf hh hb)

theorem coreStep_run {s : State} (hc : CanFetch s) {i : Instr} (hd : decodeWord s.fetchWord = .ok i) :
    coreStep s = exec i s.advance :=
  congrArg runCycle (fetchDecode_run hc hd)

theorem coreStep_unmatched {s : State} (hc : CanFetch s) {e : DecodeReject} (hd : decodeWord s.fetchWord = .error e) :
    coreStep s = .next (s.advance.unmatched s.fetchWord) :=
  congrArg runCycle (fetchDecode_unmatched hc hd)

/-- Settles O6: the five outcomes of step(), each by its own equation. -/
theorem stepCycle : Obligations.StepCycle := by
  unfold Obligations.StepCycle
  exact fun s => ⟨coreStep_faulted, coreStep_halted, coreStep_bounds, fun hc _ hd => coreStep_run hc hd,
    fun hc _ hd => coreStep_unmatched hc hd⟩

/-! ## States that steps and ticks leave alone (60_exceptions R111, R130) -/

/-- A state that one step() leaves alone is left alone by any number of them. -/
theorem repeatSteps_of_fixed {s : State} (h : coreStep s = .next s) (n : Nat) : repeatSteps n s = .next s := by
  induction n with
  | zero => rfl
  | succ n ih => simp only [repeatSteps, h, ih]

/-- In a tick on such a state only the timer update is left (R134). -/
theorem tick_of_fixed {s : State} (h : coreStep s = .next s) (n : Nat) : tick n s = .next (timerUpdate s) := by
  rw [tick, repeatSteps_of_fixed h n, mapNext]

theorem timerUpdate_faulted {s : State} (h : s.faulted ≠ none) : timerUpdate s = s :=
  if_pos (Option.isSome_iff_ne_none.mpr h)

theorem repeatSteps_faulted {s : State} (h : s.faulted ≠ none) (n : Nat) : repeatSteps n s = .next s :=
  repeatSteps_of_fixed (coreStep_faulted h) n

theorem tick_faulted {s : State} (h : s.faulted ≠ none) (n : Nat) : tick n s = .next s := by
  rw [tick_of_fixed (coreStep_faulted h) n, timerUpdate_faulted h]

/-! ## A step on an unmatched word (30_encoding R61) -/

theorem coreStep_unmatched_noop {s : State} (hc : CanFetch s) {e : DecodeReject}
    (hd : decodeWord s.fetchWord = .error e) (hp : s.params.unmatched = .noop) : coreStep s = .next s.advance := by
  rw [coreStep_unmatched hc hd, s.advance.unmatched_noop hp]

theorem coreStep_unmatched_refuse {s : State} (hc : CanFetch s) {e : DecodeReject}
    (hd : decodeWord s.fetchWord = .error e) (hp : s.params.unmatched = .refuse) :
    coreStep s = .next (s.advance.raise (.refused s.fetchWord)) := by
  rw [coreStep_unmatched hc hd, s.advance.unmatched_refuse hp]

/-- Settles O10: `advance` alone under `noop`; under `refuse` also a fault, which no step or tick then changes. -/
theorem unmatchedWordStep : Obligations.UnmatchedWordStep := by
  unfold Obligations.UnmatchedWordStep
  intro s e hc hd
  refine ⟨coreStep_unmatched_noop hc hd, fun hp => ⟨_, coreStep_unmatched_refuse hc hd hp, rfl, fun n => ?_⟩⟩
  have hfrozen : (s.advance.raise (.refused s.fetchWord)).faulted ≠ none := Option.some_ne_none _
  exact ⟨repeatSteps_faulted hfrozen n, tick_faulted hfrozen n⟩

end Sys2Proof.Machine

/-! The instructions of 40_control_flow that set PC: RET, JP, CALL and JP V0. Each is one or two of the shared operations
`popPc`, `push` and `jump`, on an address operand. -/

namespace Sys2Proof.Machine

/-! ## Operands as numbers (30_encoding R55) -/

@[simp] theorem toNat_addrOperand (nnn : Addr) : (addrOperand nnn).toNat = nnn.toNat :=
  BitVec.toNat_setWidth_of_le (by decide)

@[simp] theorem toNat_byteOperand (b : Byte) : (byteOperand b).toNat = b.toNat :=
  BitVec.toNat_setWidth_of_le (by decide)

theorem toNat_mask12 (w : Word) : (mask12 w).toNat = w.toNat % 4096 :=
  (BitVec.toNat_and w 0x0FFF#16).trans (Nat.and_two_pow_sub_one_eq_mod w.toNat 12)

/-- The 16-bit sum may itself wrap: 4096 divides 65536, so the low 12 bits are those of the sum of the numbers. -/
theorem toNat_mask12_add (v w : Word) : (mask12 (v + w)).toNat = (v.toNat + w.toNat) % 4096 := by
  rw [toNat_mask12, BitVec.toNat_add]
  exact Nat.mod_mod_of_dvd _ (by decide)

/-! ## The stack pointer as a ring (10_state R26) -/

theorem State.toNat_push_sp (s : State) (w : Word) : (s.push w).sp.toNat = (s.sp.toNat + 1) % 16 :=
  BitVec.toNat_add s.sp 1

theorem State.toNat_popPc_sp (s : State) : s.popPc.sp.toNat = (s.sp.toNat + 15) % 16 := by
  rw [State.popPc_sp, BitVec.toNat_sub, Nat.add_comm]
  rfl

/-! ## JP V0, addr (40_control_flow R72) -/

theorem exec_jpV0 (nnn : Addr) (s : State) :
    exec (.jpV0 nnn) s = .next (s.jump (mask12 (byteOperand (s.getV 0) + addrOperand nnn))) := rfl

theorem decodesAs_jpV0 : DecodesAs 0xF000 0xB000 (fun f => .jpV0 f.nnn) :=
  fun _ hw => decodeWord_of_index 21 rfl (by decide) hw

/-- Settles O19: JP V0 is a jump, and its target is the masked sum of V0 and NNN. -/
theorem jpV0AddsAndWraps : Obligations.JpV0AddsAndWraps := by
  unfold Obligations.JpV0AddsAndWraps
  refine ⟨decodesAs_jpV0, fun nnn s => ⟨_, exec_jpV0 nnn s, ?_, Frame.jump s _⟩⟩
  rw [State.jump_pc, toNat_mask12_add, toNat_byteOperand, toNat_addrOperand]

/-! ## RET (40_control_flow R69) -/

theorem exec_ret (s : State) : exec .ret s = .next s.popPc := rfl

theorem decodesAs_ret : DecodesAs 0xFFFF 0x00EE (fun _ => .ret) :=
  fun _ hw => decodeWord_of_index 1 rfl (by decide) hw

/-- Settles O16: RET is `popPc`. -/
theorem retPopsPc : Obligations.RetPopsPc := by
  unfold Obligations.RetPopsPc
  exact ⟨decodesAs_ret, fun s => ⟨_, exec_ret s, s.toNat_popPc_sp, s.popPc_pc, Frame.popPc s⟩⟩

/-! ## JP addr (40_control_flow R70) -/

theorem exec_jp (nnn : Addr) (s : State) : exec (.jp nnn) s = .next (s.jump (addrOperand nnn)) := rfl

theorem decodesAs_jp : DecodesAs 0xF000 0x1000 (fun f => .jp f.nnn) :=
  fun _ hw => decodeWord_of_index 3 rfl (by decide) hw

/-- Settles O17: JP is a jump to its address operand. -/
theorem jpSetsPc : Obligations.JpSetsPc := by
  unfold Obligations.JpSetsPc
  exact ⟨decodesAs_jp, fun nnn s => ⟨_, exec_jp nnn s, toNat_addrOperand nnn, Frame.jump s _⟩⟩

/-! ## CALL addr (40_control_flow R71) -/

theorem exec_call (nnn : Addr) (s : State) :
    exec (.call nnn) s = .next ((s.push s.pc).jump (addrOperand nnn)) := rfl

theorem decodesAs_call : DecodesAs 0xF000 0x2000 (fun f => .call f.nnn) :=
  fun _ hw => decodeWord_of_index 4 rfl (by decide) hw

/-- Settles O18: CALL pushes the advanced PC, then jumps, and a jump leaves the stack and SP as the push left them. -/
theorem callPushesPc : Obligations.CallPushesPc := by
  unfold Obligations.CallPushesPc
  refine ⟨decodesAs_call, fun nnn s => ⟨_, exec_call nnn s, ?stack, ?sp, ?pc, ?frame⟩⟩
  case stack => rw [State.jump_stackAt, State.stackAt_push_self]
  case sp => rw [State.jump_sp, State.toNat_push_sp]
  case pc => rw [State.jump_pc, toNat_addrOperand]
  case frame => exact (Frame.push s s.pc).trans (Frame.jump _ _)

end Sys2Proof.Machine

/-! The skips of 41_conditional_skips on register values. Each is `State.skipIf` on a comparison of two bytes, and what
that operation leaves is said once for equality and once for inequality. -/

namespace Sys2Proof.Machine

/-! ## A skip on a comparison of bytes (41_conditional_skips R73) -/

/-- The tests of the skips compare bytes, and so the numbers the bytes stand for. -/
theorem byte_beq_eq_decide_toNat (a b : Byte) : (a == b) = decide (a.toNat = b.toNat) :=
  decide_eq_decide.mpr BitVec.toNat_inj.symm

theorem State.skipIf_decide (s : State) (p : Prop) [Decidable p] :
    s.skipIf (decide p) = if p then { s with pc := s.pc + 2 } else s := by
  by_cases h : p
  · rw [decide_eq_true h, State.skipIf_true, if_pos h, State.skip]
  · rw [decide_eq_false h, State.skipIf_false, if_neg h]

theorem State.skipIf_beq (s : State) (a b : Byte) :
    s.skipIf (a == b) = if a.toNat = b.toNat then { s with pc := s.pc + 2 } else s := by
  rw [byte_beq_eq_decide_toNat, State.skipIf_decide]

theorem State.skipIf_bne (s : State) (a b : Byte) :
    s.skipIf (a != b) = if a.toNat = b.toNat then s else { s with pc := s.pc + 2 } := by
  rw [bne, byte_beq_eq_decide_toNat, ← decide_not, State.skipIf_decide, ite_not]

/-! ## SE Vx, byte (41_conditional_skips R74) -/

theorem exec_seByte (x : Reg) (nn : Byte) (s : State) :
    exec (.seByte x nn) s = .next (s.skipIf (s.getV x == nn)) := rfl

theorem decodesAs_seByte : DecodesAs 0xF000 0x3000 (fun f => .seByte f.x f.nn) :=
  fun _ hw => decodeWord_of_index 5 rfl (by decide) hw

/-! ## SNE Vx, byte (41_conditional_skips R75) -/

theorem exec_sneByte (x : Reg) (nn : Byte) (s : State) :
    exec (.sneByte x nn) s = .next (s.skipIf (s.getV x != nn)) := rfl

theorem decodesAs_sneByte : DecodesAs 0xF000 0x4000 (fun f => .sneByte f.x f.nn) :=
  fun _ hw => decodeWord_of_index 6 rfl (by decide) hw

/-! ## SE Vx, Vy (41_conditional_skips R76) -/

theorem exec_seReg (x y : Reg) (s : State) :
    exec (.seReg x y) s = .next (s.skipIf (s.getV x == s.getV y)) := rfl

theorem decodesAs_seReg : DecodesAs 0xF00F 0x5000 (fun f => .seReg f.x f.y) :=
  fun _ hw => decodeWord_of_index 7 rfl (by decide) hw

/-! ## SNE Vx, Vy (41_conditional_skips R77) -/

theorem exec_sneReg (x y : Reg) (s : State) :
    exec (.sneReg x y) s = .next (s.skipIf (s.getV x != s.getV y)) := rfl

theorem decodesAs_sneReg : DecodesAs 0xF00F 0x9000 (fun f => .sneReg f.x f.y) :=
  fun _ hw => decodeWord_of_index 19 rfl (by decide) hw

/-! ## The four skips together -/

/-- Settles O22: each is one row of the table and one `skipIf`, on an equality or an inequality of bytes. -/
theorem registerSkips : Obligations.RegisterSkips := by
  unfold Obligations.RegisterSkips
  refine ⟨⟨decodesAs_seByte, decodesAs_sneByte, decodesAs_seReg, decodesAs_sneReg⟩,
    fun x y nn s => ⟨?seByte, ?sneByte, ?seReg, ?sneReg⟩⟩
  case seByte => rw [exec_seByte, State.skipIf_beq]
  case sneByte => rw [exec_sneByte, State.skipIf_bne]
  case seReg => rw [exec_seReg, State.skipIf_beq]
  case sneReg => rw [exec_sneReg, State.skipIf_bne]

end Sys2Proof.Machine

/-! The register operations of 42_register_ops. Each is one `State.setV`, so `getV_setV_self` gives its result and
`Frame.setV` its frame; what is left to say of an instruction is the byte it writes. -/

namespace Sys2Proof.Machine

/-! ## LD Vx, byte (42_register_ops R78) -/

theorem exec_ldByte (x : Reg) (nn : Byte) (s : State) : exec (.ldByte x nn) s = .next (s.setV x nn) := rfl

theorem decodesAs_ldByte : DecodesAs 0xF000 0x6000 (fun f => .ldByte f.x f.nn) :=
  fun _ hw => decodeWord_of_index 8 rfl (by decide) hw

/-! ## ADD Vx, byte (42_register_ops R79) -/

theorem exec_addByte (x : Reg) (nn : Byte) (s : State) :
    exec (.addByte x nn) s = .next (s.setV x (s.getV x + nn)) := rfl

theorem decodesAs_addByte : DecodesAs 0xF000 0x7000 (fun f => .addByte f.x f.nn) :=
  fun _ hw => decodeWord_of_index 9 rfl (by decide) hw

/-! ## LD Vx, Vy (42_register_ops R80) -/

theorem exec_ldReg (x y : Reg) (s : State) : exec (.ldReg x y) s = .next (s.setV x (s.getV y)) := rfl

theorem decodesAs_ldReg : DecodesAs 0xF00F 0x8000 (fun f => .ldReg f.x f.y) :=
  fun _ hw => decodeWord_of_index 10 rfl (by decide) hw

/-! ## The loads and the add together -/

/-- Settles O24: each writes one register, and addition of bytes is addition of their numbers mod 256. -/
theorem loadAndAddByte : Obligations.LoadAndAddByte := by
  unfold Obligations.LoadAndAddByte
  refine ⟨⟨decodesAs_ldByte, decodesAs_addByte, decodesAs_ldReg⟩, fun x y nn s => ⟨?ldByte, ?addByte, ?ldReg⟩⟩
  case ldByte => exact ⟨_, exec_ldByte x nn s, s.getV_setV_self x nn, Frame.setV s x _⟩
  case addByte =>
    refine ⟨_, exec_addByte x nn s, ?_, Frame.setV s x _⟩
    rw [State.getV_setV_self, BitVec.toNat_add]
  case ldReg => exact ⟨_, exec_ldReg x y s, s.getV_setV_self x _, Frame.setV s x _⟩

/-! ## OR Vx, Vy (42_register_ops R81) -/

theorem exec_orReg (x y : Reg) (s : State) :
    exec (.orReg x y) s = .next (s.setV x (s.getV x ||| s.getV y)) := rfl

theorem decodesAs_orReg : DecodesAs 0xF00F 0x8001 (fun f => .orReg f.x f.y) :=
  fun _ hw => decodeWord_of_index 11 rfl (by decide) hw

/-! ## AND Vx, Vy (42_register_ops R82) -/

theorem exec_andReg (x y : Reg) (s : State) :
    exec (.andReg x y) s = .next (s.setV x (s.getV x &&& s.getV y)) := rfl

theorem decodesAs_andReg : DecodesAs 0xF00F 0x8002 (fun f => .andReg f.x f.y) :=
  fun _ hw => decodeWord_of_index 12 rfl (by decide) hw

/-! ## XOR Vx, Vy (42_register_ops R83) -/

theorem exec_xorReg (x y : Reg) (s : State) :
    exec (.xorReg x y) s = .next (s.setV x (s.getV x ^^^ s.getV y)) := rfl

theorem decodesAs_xorReg : DecodesAs 0xF00F 0x8003 (fun f => .xorReg f.x f.y) :=
  fun _ hw => decodeWord_of_index 13 rfl (by decide) hw

/-! ## The bitwise operations together (42_register_ops R84) -/

/-- Settles O25: each writes only V[X], so VF is framed unless X is 15, and the byte written is a bitwise operation. -/
theorem bitwiseOpsKeepVf : Obligations.BitwiseOpsKeepVf := by
  unfold Obligations.BitwiseOpsKeepVf
  refine ⟨⟨decodesAs_orReg, decodesAs_andReg, decodesAs_xorReg⟩, fun x y s =>
    ⟨⟨_, exec_orReg x y s, Frame.setV s x _, fun k => ?orBit⟩,
      ⟨_, exec_andReg x y s, Frame.setV s x _, fun k => ?andBit⟩,
      ⟨_, exec_xorReg x y s, Frame.setV s x _, fun k => ?xorBit⟩⟩⟩
  case orBit => rw [State.getV_setV_self, BitVec.getLsbD_or]
  case andBit => rw [State.getV_setV_self, BitVec.getLsbD_and]
  case xorBit => rw [State.getV_setV_self, BitVec.getLsbD_xor]

end Sys2Proof.Machine

/-! The index register operations of 44_index_ops. Each is one `State.setI`, so `State.setI_i` gives its result and
`Frame.setI` its frame, VF included; what is left to say of an instruction is the number it writes. -/

namespace Sys2Proof.Machine

/-! ## LD I, addr (44_index_ops R93) -/

theorem exec_ldI (nnn : Addr) (s : State) : exec (.ldI nnn) s = .next (s.setI (addrOperand nnn)) := rfl

theorem decodesAs_ldI : DecodesAs 0xF000 0xA000 (fun f => .ldI f.nnn) :=
  fun _ hw => decodeWord_of_index 20 rfl (by decide) hw

/-! ## ADD I, Vx (44_index_ops R94) -/

theorem exec_addI (x : Reg) (s : State) :
    exec (.addI x) s = .next (s.setI (mask12 (s.i + byteOperand (s.getV x)))) := rfl

theorem decodesAs_addI : DecodesAs 0xF0FF 0xF01E (fun f => .addI f.x) :=
  fun _ hw => decodeWord_of_index 30 rfl (by decide) hw

/-! ## LD F, Vx (44_index_ops R95) -/

theorem exec_ldF (x : Reg) (s : State) : exec (.ldF x) s = .next (s.setI (byteOperand (s.getV x) * 5)) := rfl

theorem decodesAs_ldF : DecodesAs 0xF0FF 0xF029 (fun f => .ldF f.x) :=
  fun _ hw => decodeWord_of_index 31 rfl (by decide) hw

/-- The glyph address of a byte is at most 255 * 5 = 1275, so the 16-bit product does not wrap. -/
theorem toNat_byteOperand_mul_five (b : Byte) : (byteOperand b * 5).toNat = b.toNat * 5 := by
  have hb : b.toNat < 256 := b.isLt
  have hfits : b.toNat * 5 < 2 ^ 16 := by omega
  rw [BitVec.toNat_mul, toNat_byteOperand]
  exact Nat.mod_eq_of_lt hfits

/-! ## The index register operations together -/

/-- Settles O30: each writes I alone; the mask makes ADD I a sum mod 4096, and LD F's product fits in 16 bits. -/
theorem indexOps : Obligations.IndexOps := by
  unfold Obligations.IndexOps
  refine ⟨⟨decodesAs_ldI, decodesAs_addI, decodesAs_ldF⟩, fun nnn x s =>
    ⟨⟨_, exec_ldI nnn s, ?ldI, Frame.setI s _⟩, ⟨_, exec_addI x s, ?addI, Frame.setI s _⟩,
      ⟨_, exec_ldF x s, ?ldF, Frame.setI s _⟩⟩⟩
  case ldI => rw [State.setI_i, toNat_addrOperand]
  case addI => rw [State.setI_i, toNat_mask12_add, toNat_byteOperand]
  case ldF => rw [State.setI_i, toNat_byteOperand_mul_five]

end Sys2Proof.Machine

/-! A fetch out of bounds, 60_exceptions R110: PC stays where it is, so the same step is made again and again and the log
grows by one record each time. -/

namespace Sys2Proof.Machine

theorem repeatSteps_succ_of_next {s t : State} (h : coreStep s = .next t) (n : Nat) :
    repeatSteps (n + 1) s = repeatSteps n t := by
  rw [repeatSteps, h]

/-- The induction is over all states, because each step makes the next one from a longer log. -/
theorem repeatSteps_bounds {s : State} (hf : s.faulted = none) (hh : s.halted = false) (hb : 4096 ≤ s.pc.toNat + 1)
    (n : Nat) :
    repeatSteps n s =
      .next { s with outputs := List.replicate n (.fetchBoundsError s.pc) ++ s.outputs } := by
  induction n generalizing s with
  | zero => rfl
  | succ n ih =>
    have hrest := ih (s := s.emit (.fetchBoundsError s.pc)) hf hh hb
    rw [repeatSteps_succ_of_next (coreStep_bounds hf hh hb), hrest, List.replicate_succ', List.append_assoc]
    rfl

/-- Settles O11: each of the steps is the one that logs, and the tick adds its timer update to them. -/
theorem fetchFailureIsStuck : Obligations.FetchFailureIsStuck := by
  unfold Obligations.FetchFailureIsStuck
  intro s n hf hh hb
  have hsteps := repeatSteps_bounds hf hh hb n
  refine ⟨hsteps, ?_⟩
  rw [tick, hsteps, mapNext]

end Sys2Proof.Machine

/-! The keypad events of 60_exceptions R126. A press is `State.setKey` and, where a key-wait is pending in a state that is
not frozen, the delivery of the key. -/

namespace Sys2Proof.Machine

/-! ## The two outcomes of a press -/

theorem hostKeyPress_of_waiting {s : State} {x : Reg} (hf : s.faulted = none) (hw : s.keyWait = some x) (k : BitVec 4) :
    hostKeyPress k s =
      { (s.setKey k true).setV x (k.setWidth 8) with keyWait := none, halted := false } := by
  simp [hostKeyPress, deliverKey, hf, hw]

theorem hostKeyPress_of_not_waiting {s : State} (h : s.faulted ≠ none ∨ s.keyWait = none) (k : BitVec 4) :
    hostKeyPress k s = s.setKey k true := by
  rcases deliverKey_cases k (s.setKey k true) with hkeep | ⟨x, hf, hw, _⟩
  · exact hkeep
  · rcases h with hfaulted | hnowait
    · exact absurd hf hfaulted
    · exact absurd (hw.symm.trans hnowait) (Option.some_ne_none x)

/-! ## What a press and a release leave -/

/-- The delivery does not touch the keys. -/
theorem hostKeyPress_keyHeld (k j : BitVec 4) (s : State) :
    (hostKeyPress k s).keyHeld j = if j = k then true else s.keyHeld j := by
  rw [← State.keyHeld_setKey, hostKeyPress]
  rcases deliverKey_cases k (s.setKey k true) with h | ⟨x, _, _, h⟩
  · rw [h]
  · rw [h]
    rfl

theorem hostKeyRelease_keyHeld (k j : BitVec 4) (s : State) :
    (hostKeyRelease k s).keyHeld j = if j = k then false else s.keyHeld j :=
  s.keyHeld_setKey k j false

theorem hostKeyPress_getV_of_waiting {s : State} {x : Reg} (hf : s.faulted = none) (hw : s.keyWait = some x)
    (k : BitVec 4) (r : Reg) :
    (hostKeyPress k s).getV r = if r = x then k.setWidth 8 else s.getV r := by
  rw [hostKeyPress_of_waiting hf hw]
  exact State.getV_setV (s.setKey k true) x r (k.setWidth 8)

theorem hostKeyPress_delivers {s : State} {x : Reg} (hf : s.faulted = none) (hw : s.keyWait = some x) (k : BitVec 4) :
    ((hostKeyPress k s).getV x).toNat = k.toNat := by
  rw [hostKeyPress_getV_of_waiting hf hw, if_pos rfl]
  exact BitVec.toNat_setWidth_of_le (by decide)

/-- Settles O56: the keys are those of `setKey`, and the rest of a press is one of its two outcomes. -/
theorem keyPressDelivers : Obligations.KeyPressDelivers := by
  unfold Obligations.KeyPressDelivers
  intro s k
  refine ⟨?held, ?released, fun j hj => ⟨?pressOthers, ?releaseOthers⟩, rfl, fun h => ?quiet,
    fun x hf hw => ⟨hostKeyPress_delivers hf hw k, fun r hr => ?otherRegs, ?delivered⟩⟩
  case held => rw [hostKeyPress_keyHeld, if_pos rfl]
  case released => rw [hostKeyRelease_keyHeld, if_pos rfl]
  case pressOthers => rw [hostKeyPress_keyHeld, if_neg hj]
  case releaseOthers => rw [hostKeyRelease_keyHeld, if_neg hj]
  case quiet =>
    rw [hostKeyPress_of_not_waiting h]
    rfl
  case otherRegs => rw [hostKeyPress_getV_of_waiting hf hw, if_neg hr]
  case delivered =>
    rw [hostKeyPress_of_waiting hf hw]
    rfl

end Sys2Proof.Machine

/-! pause() and resume() of 60_exceptions R125. Neither touches `keyWait`, so a key pressed after either is delivered as
R126 says. -/

namespace Sys2Proof.Machine

theorem hostPause_faulted {s : State} (h : s.faulted ≠ none) : hostPause s = s :=
  if_pos (Option.isSome_iff_ne_none.mpr h)

theorem hostResume_faulted {s : State} (h : s.faulted ≠ none) : hostResume s = s :=
  if_pos (Option.isSome_iff_ne_none.mpr h)

theorem hostPause_of_live {s : State} (h : s.faulted = none) : hostPause s = { s with halted := true } := by
  simp [hostPause, h]

theorem hostResume_of_live {s : State} (h : s.faulted = none) : hostResume s = { s with halted := false } := by
  simp [hostResume, h]

theorem hostPause_hostPause (s : State) : hostPause (hostPause s) = hostPause s := by
  by_cases h : s.faulted = none
  · rw [hostPause_of_live h]
    exact hostPause_of_live h
  · rw [hostPause_faulted h, hostPause_faulted h]

theorem hostResume_hostResume (s : State) : hostResume (hostResume s) = hostResume s := by
  by_cases h : s.faulted = none
  · rw [hostResume_of_live h]
    exact hostResume_of_live h
  · rw [hostResume_faulted h, hostResume_faulted h]

/-- Settles O57: the key clauses are the delivery of R126 in the state that resume() or pause() leaves. -/
theorem pauseAndResume : Obligations.PauseAndResume := by
  unfold Obligations.PauseAndResume
  intro s
  refine ⟨fun h => ⟨hostPause_faulted h, hostResume_faulted h⟩, fun hf => ⟨hostPause_of_live hf, hostResume_of_live hf,
    hostPause_hostPause s, hostResume_hostResume s, fun x k hw => ?_⟩⟩
  rw [hostPause_of_live hf, hostResume_of_live hf]
  have hdelivered := hostKeyPress_of_waiting (s := { s with halted := true }) hf hw k
  exact ⟨hostKeyPress_delivers (s := { s with halted := false }) hf hw k, congrArg State.halted hdelivered,
    congrArg State.keyWait hdelivered⟩

end Sys2Proof.Machine

/-! The opcode table read in both directions (30_encoding R54, R56, R58). Two facts carry it: the rows overlap only at SYS,
so any matching row that reads a well-formed instruction decides; and a word is put together again from its fields. -/

namespace Sys2Proof

/-! ## Rows that overlap -/

/-- The only row that can match a word of an earlier row is SYS, at place 2: a check of the masks and patterns of all pairs. -/
theorem opcodeTable_overlap (k : Fin opcodeTable.length) : ∀ q ∈ opcodeTable.take k.val,
    q.pattern &&& opcodeTable[k].mask = opcodeTable[k].pattern &&& q.mask → k.val = 2 := by
  revert k
  decide

theorem rowMatches_iff {r : OpcodeRow} {w : Word} : rowMatches r w = true ↔ w &&& r.mask = r.pattern := beq_iff_eq

/-- Settles O5: two rows that match one word agree where both masks look. -/
theorem onlySysOverlaps : Obligations.OnlySysOverlaps := by
  unfold Obligations.OnlySysOverlaps
  intro j k q r w hjk hq hr hqw hrw
  obtain ⟨hk, rfl⟩ := List.getElem?_eq_some_iff.mp hr
  have hmem : q ∈ opcodeTable.take k := by
    refine List.mem_of_getElem? (i := j) ?_
    rw [List.getElem?_take_of_lt hjk, hq]
  exact opcodeTable_overlap ⟨k, hk⟩ q hmem (masks_agree (rowMatches_iff.mp hrw) (rowMatches_iff.mp hqw))

/-! ## Decoding by any matching row -/

/-- The rows before SYS are CLS and RET, and a SYS instruction with the address of their words is not well formed. -/
theorem wellFormed_sys_of_earlier {j : Nat} {q : OpcodeRow} {w : Word} (hj : j < 2) (hq : opcodeTable[j]? = some q)
    (hqw : rowMatches q w = true) : wellFormed (.sys (fieldsOf w).nnn) = false := by
  have hw : w &&& q.mask = q.pattern := rowMatches_iff.mp hqw
  obtain rfl | rfl : j = 0 ∨ j = 1 := by omega
  · obtain rfl : q = ⟨0xFFFF, 0x00E0, fun _ => .cls⟩ := (Option.some.inj hq).symm
    obtain rfl : w = 0x00E0 := BitVec.and_allOnes.symm.trans hw
    rfl
  · obtain rfl : q = ⟨0xFFFF, 0x00EE, fun _ => .ret⟩ := (Option.some.inj hq).symm
    obtain rfl : w = 0x00EE := BitVec.and_allOnes.symm.trans hw
    rfl

/-- A row that matches a word decides, unless it is SYS on a word of CLS or RET (30_encoding R56, R58). -/
theorem decodeWord_of_mem {r : OpcodeRow} {w : Word} (hr : r ∈ opcodeTable) (hw : w &&& r.mask = r.pattern)
    (hwf : wellFormed (r.build (fieldsOf w)) = true) : decodeWord w = .ok (r.build (fieldsOf w)) := by
  have hrw : rowMatches r w = true := rowMatches_iff.mpr hw
  obtain ⟨k, hk, hkr⟩ := List.mem_iff_getElem.mp hr
  have hfirst : ∀ j (hj : j < k), (!rowMatches opcodeTable[j] w) = true := by
    intro j hj
    by_contra hqw
    have hqw : rowMatches opcodeTable[j] w = true := by simpa using hqw
    have hj' : opcodeTable[j]? = some opcodeTable[j] := List.getElem?_eq_getElem _
    have hr' : opcodeTable[k]? = some r := hkr ▸ List.getElem?_eq_getElem hk
    obtain rfl : k = 2 := onlySysOverlaps j k _ r w hj hj' hr' hqw hrw
    obtain rfl : r = ⟨0xF000, 0x0000, fun f => .sys f.nnn⟩ := (Option.some.inj hr').symm
    exact Bool.noConfusion (hwf.symm.trans (wellFormed_sys_of_earlier hj hj' hqw))
  have hfind : opcodeTable.find? (rowMatches · w) = some r :=
    List.find?_eq_some_iff_getElem.mpr ⟨hrw, k, hk, hkr, hfirst⟩
  rw [decodeWord, hfind]

/-- What decodes is what some row of the table reads. -/
theorem exists_row_of_decodeWord {w : Word} {i : Instr} (h : decodeWord w = .ok i) :
    ∃ r ∈ opcodeTable, w &&& r.mask = r.pattern ∧ r.build (fieldsOf w) = i := by
  unfold decodeWord at h
  split at h
  · next r hfind =>
    exact ⟨r, List.mem_of_find?_eq_some hfind, rowMatches_iff.mp (List.find?_some (p := (rowMatches · w)) hfind), Except.ok.inj h⟩
  · cases h

/-! ## Decoding an encoded instruction -/

/-- The rows of `Laws.RowMatch`, one per constructor. -/
theorem rowMatch_statement (i : Instr) : Laws.RowMatch.Statement i := by
  open Laws.RowMatch in
  cases i with
  | cls => exact cls
  | ret => exact ret
  | sys nnn => exact sys nnn
  | jp nnn => exact jp nnn
  | call nnn => exact call nnn
  | seByte x nn => exact seByte x nn
  | sneByte x nn => exact sneByte x nn
  | seReg x y => exact seReg x y
  | ldByte x nn => exact ldByte x nn
  | addByte x nn => exact addByte x nn
  | ldReg x y => exact ldReg x y
  | orReg x y => exact orReg x y
  | andReg x y => exact andReg x y
  | xorReg x y => exact xorReg x y
  | addReg x y => exact addReg x y
  | subReg x y => exact subReg x y
  | shr x y => exact shr x y
  | subn x y => exact subn x y
  | shl x y => exact shl x y
  | sneReg x y => exact sneReg x y
  | ldI nnn => exact ldI nnn
  | jpV0 nnn => exact jpV0 nnn
  | rnd x nn => exact rnd x nn
  | drw x y n => exact drw x y n
  | skp x => exact skp x
  | sknp x => exact sknp x
  | ldVxDt x => exact ldVxDt x
  | ldVxK x => exact ldVxK x
  | ldDt x => exact ldDt x
  | ldSt x => exact ldSt x
  | addI x => exact addI x
  | ldF x => exact ldF x
  | ldB x => exact ldB x
  | stRegs x => exact stRegs x
  | ldRegs x => exact ldRegs x

theorem decodeWord_encodeWord {i : Instr} (hwf : wellFormed i = true) : decodeWord (encodeWord i) = .ok i := by
  obtain ⟨r, hr, hm, hb⟩ := rowMatch_statement i hwf
  rw [decodeWord_of_mem hr hm (hb.symm ▸ hwf), hb]

/-- Settles O2: the instruction's own row matches its word and reads it back, and no other row can take the word. -/
theorem decodeOfEncode : Obligations.DecodeOfEncode := by
  unfold Obligations.DecodeOfEncode
  intro i rest hwf
  refine decode_pair (highByte (encodeWord i)) (lowByte (encodeWord i)) rest ?_
  rw [wordOfBytes_bytes, decodeWord_encodeWord hwf]

/-! ## A word from its fields (30_encoding R53, R54) -/

/-- The major opcode: w[15:12]. -/
def majorOf (w : Word) : BitVec 4 := w.extractLsb' 12 4

theorem wordNNN_of_fields (w : Word) : wordNNN (majorOf w) (fieldsOf w).nnn = w :=
  (BitVec.extractLsb'_append_extractLsb'_eq_extractLsb' (x := w) (start₁ := 0) (len₁ := 12) rfl).trans (extract_all w)

theorem wordXNN_of_fields (w : Word) : wordXNN (majorOf w) (fieldsOf w).x (fieldsOf w).nn = w := by
  have hhigh : majorOf w ++ (fieldsOf w).x = w.extractLsb' 8 8 :=
    BitVec.extractLsb'_append_extractLsb'_eq_extractLsb' rfl
  rw [wordXNN, hhigh]
  exact (BitVec.extractLsb'_append_extractLsb'_eq_extractLsb' (x := w) (start₁ := 0) (len₁ := 8) rfl).trans (extract_all w)

theorem wordXYN_of_fields (w : Word) :
    wordXYN (majorOf w) (fieldsOf w).x (fieldsOf w).y (fieldsOf w).n = w := by
  have hlow : (fieldsOf w).y ++ (fieldsOf w).n = (fieldsOf w).nn :=
    BitVec.extractLsb'_append_extractLsb'_eq_extractLsb' rfl
  refine Eq.trans ?_ (wordXNN_of_fields w)
  rw [wordXNN, ← hlow]
  exact BitVec.append_assoc

@[simp] theorem majorOf_wordNNN (op : BitVec 4) (nnn : Addr) : majorOf (wordNNN op nnn) = op :=
  (extract_append_high op nnn 12 4 (by omega)).trans (extract_all op)

@[simp] theorem majorOf_wordXNN (op : BitVec 4) (x : Reg) (nn : Byte) : majorOf (wordXNN op x nn) = op :=
  (extract_append_high (op ++ x) nn 12 4 (by omega)).trans
    ((extract_append_high op x 4 4 (by omega)).trans (extract_all op))

@[simp] theorem majorOf_wordXYN (op : BitVec 4) (x y : Reg) (n : Nibble) : majorOf (wordXYN op x y n) = op :=
  (extract_append_high (op ++ x ++ y) n 12 4 (by omega)).trans
    ((extract_append_high (op ++ x) y 8 4 (by omega)).trans
      ((extract_append_high op x 4 4 (by omega)).trans (extract_all op)))

/-! ## The masks of the table on any word (30_encoding R56) -/

theorem and_major (w : Word) : w &&& 0xF000#16 = wordNNN (majorOf w) 0#12 :=
  (congrArg (· &&& 0xF000#16) (wordNNN_of_fields w)).symm.trans (wordNNN_and_mask _ _)

theorem and_majorNN (w : Word) : w &&& 0xF0FF#16 = wordXNN (majorOf w) 0#4 (fieldsOf w).nn :=
  (congrArg (· &&& 0xF0FF#16) (wordXNN_of_fields w)).symm.trans (wordXNN_and_low _ _ _)

theorem and_majorN (w : Word) : w &&& 0xF00F#16 = wordXYN (majorOf w) 0#4 0#4 (fieldsOf w).n :=
  (congrArg (· &&& 0xF00F#16) (wordXYN_of_fields w)).symm.trans (wordXYN_and_low _ _ _ _)

theorem and_major_iff {w p : Word} (hp : p &&& 0xF000#16 = p) : w &&& 0xF000#16 = p ↔ majorOf w = majorOf p := by
  constructor
  · rintro rfl
    rw [and_major, majorOf_wordNNN]
  · intro h
    rw [and_major, h, ← and_major, hp]

theorem and_majorNN_iff {w p : Word} (hp : p &&& 0xF0FF#16 = p) :
    w &&& 0xF0FF#16 = p ↔ majorOf w = majorOf p ∧ (fieldsOf w).nn = (fieldsOf p).nn := by
  constructor
  · rintro rfl
    rw [and_majorNN, majorOf_wordXNN, fieldsOf_wordXNN_nn]
    exact ⟨rfl, rfl⟩
  · rintro ⟨hop, hnn⟩
    rw [and_majorNN, hop, hnn, ← and_majorNN, hp]

theorem and_majorN_iff {w p : Word} (hp : p &&& 0xF00F#16 = p) :
    w &&& 0xF00F#16 = p ↔ majorOf w = majorOf p ∧ (fieldsOf w).n = (fieldsOf p).n := by
  constructor
  · rintro rfl
    rw [and_majorN, majorOf_wordXYN, fieldsOf_wordXYN_n]
    exact ⟨rfl, rfl⟩
  · rintro ⟨hop, hn⟩
    rw [and_majorN, hop, hn, ← and_majorN, hp]

/-! ## Encoding a decoded word -/

/-- What the row reads from a word it matches encodes to that word. -/
def OpcodeRow.Encodes (r : OpcodeRow) : Prop :=
  ∀ w : Word, w &&& r.mask = r.pattern → encodeWord (r.build (fieldsOf w)) = w

section
variable {w : Word} (op : BitVec 4)

theorem majorOf_of_match {op : BitVec 4} (h : w &&& 0xF000#16 = wordNNN op 0#12) : majorOf w = op := by
  simpa using congrArg majorOf ((and_major w).symm.trans h)

theorem wordNNN_of_match (h : w &&& 0xF000#16 = wordNNN op 0#12) : wordNNN op (fieldsOf w).nnn = w := by
  rw [← majorOf_of_match h, wordNNN_of_fields]

theorem wordXNN_of_match (h : w &&& 0xF000#16 = wordNNN op 0#12) : wordXNN op (fieldsOf w).x (fieldsOf w).nn = w := by
  rw [← majorOf_of_match h, wordXNN_of_fields]

theorem wordXYN_of_match (h : w &&& 0xF000#16 = wordNNN op 0#12) :
    wordXYN op (fieldsOf w).x (fieldsOf w).y (fieldsOf w).n = w := by
  rw [← majorOf_of_match h, wordXYN_of_fields]

theorem wordXYN_of_matchN {n : Nibble} (h : w &&& 0xF00F#16 = wordXYN op 0#4 0#4 n) :
    wordXYN op (fieldsOf w).x (fieldsOf w).y n = w := by
  have hparts := (and_majorN w).symm.trans h
  have hop : majorOf w = op := by simpa using congrArg majorOf hparts
  have hn : (fieldsOf w).n = n := by simpa using congrArg (fun u => (fieldsOf u).n) hparts
  rw [← hop, ← hn, wordXYN_of_fields]

theorem wordXNN_of_matchNN {nn : Byte} (h : w &&& 0xF0FF#16 = wordXNN op 0#4 nn) : wordXNN op (fieldsOf w).x nn = w := by
  have hparts := (and_majorNN w).symm.trans h
  have hop : majorOf w = op := by simpa using congrArg majorOf hparts
  have hnn : (fieldsOf w).nn = nn := by simpa using congrArg (fun u => (fieldsOf u).nn) hparts
  rw [← hop, ← hnn, wordXNN_of_fields]

end

theorem rowsControl_encode : ∀ r ∈ rowsControl, r.Encodes := by
  simp only [rowsControl, List.forall_mem_cons]
  exact ⟨fun w h => h.symm.trans BitVec.and_allOnes, fun w h => h.symm.trans BitVec.and_allOnes,
    fun w h => wordNNN_of_match 0x0 h, fun w h => wordNNN_of_match 0x1 h, fun w h => wordNNN_of_match 0x2 h,
    fun w h => wordXNN_of_match 0x3 h, fun w h => wordXNN_of_match 0x4 h, fun w h => wordXYN_of_matchN 0x5 h,
    fun w h => wordXNN_of_match 0x6 h, fun w h => wordXNN_of_match 0x7 h, List.forall_mem_nil _⟩

theorem rowsAlu_encode : ∀ r ∈ rowsAlu, r.Encodes := by
  simp only [rowsAlu, List.forall_mem_cons]
  exact ⟨fun w h => wordXYN_of_matchN 0x8 h, fun w h => wordXYN_of_matchN 0x8 h, fun w h => wordXYN_of_matchN 0x8 h,
    fun w h => wordXYN_of_matchN 0x8 h, fun w h => wordXYN_of_matchN 0x8 h, fun w h => wordXYN_of_matchN 0x8 h,
    fun w h => wordXYN_of_matchN 0x8 h, fun w h => wordXYN_of_matchN 0x8 h, fun w h => wordXYN_of_matchN 0x8 h,
    List.forall_mem_nil _⟩

theorem rowsMiddle_encode : ∀ r ∈ rowsMiddle, r.Encodes := by
  simp only [rowsMiddle, List.forall_mem_cons]
  exact ⟨fun w h => wordXYN_of_matchN 0x9 h, fun w h => wordNNN_of_match 0xA h, fun w h => wordNNN_of_match 0xB h,
    fun w h => wordXNN_of_match 0xC h, fun w h => wordXYN_of_match 0xD h, fun w h => wordXNN_of_matchNN 0xE h,
    fun w h => wordXNN_of_matchNN 0xE h, List.forall_mem_nil _⟩

theorem rowsMisc_encode : ∀ r ∈ rowsMisc, r.Encodes := by
  simp only [rowsMisc, List.forall_mem_cons]
  exact ⟨fun w h => wordXNN_of_matchNN 0xF h, fun w h => wordXNN_of_matchNN 0xF h, fun w h => wordXNN_of_matchNN 0xF h,
    fun w h => wordXNN_of_matchNN 0xF h, fun w h => wordXNN_of_matchNN 0xF h, fun w h => wordXNN_of_matchNN 0xF h,
    fun w h => wordXNN_of_matchNN 0xF h, fun w h => wordXNN_of_matchNN 0xF h, fun w h => wordXNN_of_matchNN 0xF h,
    List.forall_mem_nil _⟩

theorem encodeWord_of_decodeWord {w : Word} {i : Instr} (h : decodeWord w = .ok i) : encodeWord i = w := by
  obtain ⟨r, hr, hm, rfl⟩ := exists_row_of_decodeWord h
  simp only [opcodeTable, List.mem_append] at hr
  obtain ((hr | hr) | hr) | hr := hr
  · exact rowsControl_encode r hr w hm
  · exact rowsAlu_encode r hr w hm
  · exact rowsMiddle_encode r hr w hm
  · exact rowsMisc_encode r hr w hm

/-- The two terms that name no instruction, SYS 0E0 and SYS 0EE, are never read: their words decode to CLS and RET. -/
theorem wellFormed_of_decodeWord {w : Word} {i : Instr} (h : decodeWord w = .ok i) : wellFormed i = true := by
  cases i with
  | sys nnn =>
    have hw : encodeWord (.sys nnn) = w := encodeWord_of_decodeWord h
    by_contra hwf
    obtain rfl | rfl : nnn = 0x0E0#12 ∨ nnn = 0x0EE#12 := by
      by_contra hne
      exact hwf (by simpa [wellFormed] using not_or.mp hne)
    · subst hw
      exact absurd h (by decide)
    · subst hw
      exact absurd h (by decide)
  | _ => rfl

/-- Settles O3: each row encodes what it reads. -/
theorem encodeOfDecode : Obligations.EncodeOfDecode := by
  unfold Obligations.EncodeOfDecode
  exact fun w i h => ⟨wellFormed_of_decodeWord h, encodeWord_of_decodeWord h⟩

/-! ## The words of no row (30_encoding R58) -/

theorem decodeWord_unmatched_iff (w : Word) :
    decodeWord w = .error (.unmatched w) ↔ ∀ r ∈ opcodeTable, ¬ w &&& r.mask = r.pattern := by
  constructor
  · intro h r hr hm
    have hnone : opcodeTable.find? (rowMatches · w) = none := by
      unfold decodeWord at h
      split at h
      · cases h
      · assumption
    exact List.find?_eq_none.mp hnone r hr (rowMatches_iff.mpr hm)
  · intro h
    have hnone : opcodeTable.find? (rowMatches · w) = none :=
      List.find?_eq_none.mpr fun r hr hm => h r hr (rowMatches_iff.mp hm)
    rw [decodeWord, hnone]

/-- The words of CLS and RET are words of SYS, so it is enough to look from SYS on. -/
theorem no_match_iff_from_sys (w : Word) :
    (∀ r ∈ opcodeTable, ¬ w &&& r.mask = r.pattern) ↔ ∀ r ∈ opcodeTable.drop 2, ¬ w &&& r.mask = r.pattern := by
  constructor
  · exact fun h r hr => h r (List.mem_of_mem_drop hr)
  · intro h
    have hsys : ¬ w &&& 0xF000 = 0x0000 := h ⟨0xF000, 0x0000, fun f => .sys f.nnn⟩ (.head _)
    refine List.forall_mem_cons.mpr ⟨fun hcls => hsys ?_, List.forall_mem_cons.mpr ⟨fun hret => hsys ?_, h⟩⟩
    · obtain rfl : w = 0x00E0 := BitVec.and_allOnes.symm.trans hcls
      rfl
    · obtain rfl : w = 0x00EE := BitVec.and_allOnes.symm.trans hret
      rfl

theorem fieldsOf_wordXYN_nn (op : BitVec 4) (x y : Reg) (n : Nibble) : (fieldsOf (wordXYN op x y n)).nn = y ++ n := by
  rw [show wordXYN op x y n = wordXNN op x (y ++ n) from BitVec.append_assoc, fieldsOf_wordXNN_nn]

/-- Settles O4: from SYS on, each row asks for a major opcode and, by its mask, for nothing more, for N or for NN. -/
theorem unmatchedWordsByNibble : Obligations.UnmatchedWordsByNibble := by
  unfold Obligations.UnmatchedWordsByNibble
  intro op x y n
  rw [decodeWord_unmatched_iff, no_match_iff_from_sys]
  simp only [opcodeTable, rowsControl, rowsAlu, rowsMiddle, rowsMisc, List.cons_append, List.nil_append, List.drop_succ_cons,
    List.drop_zero, List.forall_mem_cons, BitVec.ofNat_eq_ofNat]
  simp (disch := decide) only [and_major_iff, and_majorN_iff, and_majorNN_iff, majorOf_wordXYN, fieldsOf_wordXYN_n,
    fieldsOf_wordXYN_nn]
  generalize y ++ n = nn
  obtain ⟨⟨k, hk⟩⟩ := op
  interval_cases k <;> simp [majorOf, fieldsOf]

/-! ## Words of the spec (30_encoding R54, 95_test_vectors) -/

/-- Settles O1: fifteen byte sequences and the fields of one word, each computed. -/
theorem specWordsDecode : Obligations.SpecWordsDecode := by
  unfold Obligations.SpecWordsDecode
  exact ⟨rfl, rfl, rfl, rfl, rfl, rfl, rfl, rfl, rfl, rfl, rfl, rfl, rfl, rfl, rfl, rfl⟩

/-! ## SYS addr (40_control_flow R67) -/

theorem decodeWord_sys {w : Word} (hw : w &&& 0xF000 = 0x0000) (hcls : w ≠ 0x00E0) (hret : w ≠ 0x00EE) :
    decodeWord w = .ok (.sys (fieldsOf w).nnn) := by
  have hword : wordNNN 0x0 (fieldsOf w).nnn = w := wordNNN_of_match 0x0 hw
  have hrow : (⟨0xF000, 0x0000, fun f => .sys f.nnn⟩ : OpcodeRow) ∈ opcodeTable := .tail _ (.tail _ (.head _))
  refine decodeWord_of_mem hrow hw ?_
  simp only [wellFormed, Bool.and_eq_true, bne_iff_ne]
  constructor
  · exact fun h => hcls (by rw [← hword, h]; rfl)
  · exact fun h => hret (by rw [← hword, h]; rfl)

end Sys2Proof

/-! The invariant of the machine (10_state R20, R24, R34, R38; 70_reset_and_hazards R134). One lemma per part of the state
that it bounds, then the handlers, the host's events and the timer update as uses of them. -/

namespace Sys2Proof.Machine

/-! ## One part of the state at a time -/

/-- The parts of the state that the invariant speaks of. -/
def State.bounded (s : State) : Memory × Config.Params × Bitmap × Word × Word × Vector Word 16 × Option Clock :=
  (s.mem, s.params, s.disp, s.i, s.pc, s.stack, s.clock)

section
variable {s : State}

/-- Nothing else matters to the invariant. -/
theorem Invariant.of_bounded (h : Invariant s) {t : State} (ht : t.bounded = s.bounded) : Invariant t := by
  simp only [State.bounded, Prod.mk.injEq] at ht
  obtain ⟨hmem, hparams, hdisp, hi, hpc, hstack, hclock⟩ := ht
  constructor
  case memWf => exact hmem ▸ h.memWf
  case rows => exact hparams ▸ h.rows
  case dispWf => rw [State.pixels, hparams, hdisp]; exact h.dispWf
  case iBound => exact hi ▸ h.iBound
  case pcBound => exact hpc ▸ h.pcBound
  case stBound => intro j; rw [State.stackAt, show t.stack = s.stack from hstack]; exact h.stBound j
  case tickPos => exact hclock ▸ h.tickPos

theorem Invariant.setI (h : Invariant s) {w : Word} (hw : w.toNat ≤ 0xFFF) : Invariant (s.setI w) :=
  ⟨h.memWf, h.rows, h.dispWf, hw, h.pcBound, h.stBound, h.tickPos⟩

theorem Invariant.jump (h : Invariant s) {w : Word} (hw : w.toNat ≤ 0x1002) : Invariant (s.jump w) :=
  ⟨h.memWf, h.rows, h.dispWf, h.iBound, hw, h.stBound, h.tickPos⟩

theorem Invariant.push (h : Invariant s) {w : Word} (hw : w.toNat ≤ 0x1000) : Invariant (s.push w) := by
  refine ⟨h.memWf, h.rows, h.dispWf, h.iBound, h.pcBound, fun j => ?_, h.tickPos⟩
  rw [State.stackAt_push]
  split
  · exact hw
  · exact h.stBound j

theorem Invariant.popPc (h : Invariant s) : Invariant s.popPc :=
  ⟨h.memWf, h.rows, h.dispWf, h.iBound, (h.stBound _).trans (by decide), h.stBound, h.tickPos⟩

theorem Invariant.withMem (h : Invariant s) {m : Memory} (hm : Memory.wf m = true) : Invariant { s with mem := m } :=
  ⟨hm, h.rows, h.dispWf, h.iBound, h.pcBound, h.stBound, h.tickPos⟩

theorem Invariant.dispClear (h : Invariant s) : Invariant s.dispClear :=
  ⟨h.memWf, h.rows, rfl, h.iBound, h.pcBound, h.stBound, h.tickPos⟩

theorem Invariant.drawn (h : Invariant s) (pts : List (Nat × Nat)) : Invariant (s.drawn pts) :=
  ⟨h.memWf, h.rows, dispAfter_wf h.rows pts h.dispWf, h.iBound, h.pcBound, h.stBound, h.tickPos⟩

theorem Invariant.withClock (h : Invariant s) {k : Option Clock} (hk : ∀ c, k = some c → c.done = 0 ∨ c.done < c.perTick) :
    Invariant (s.withClock k) :=
  ⟨h.memWf, h.rows, h.dispWf, h.iBound, h.pcBound, h.stBound, hk⟩

/-! ## Composed operations -/

theorem Invariant.unmatched (h : Invariant s) (w : Word) : Invariant (s.unmatched w) := by
  rcases s.unmatched_cases w with hu | hu <;> rw [hu]
  · exact h
  · exact h.of_bounded rfl

/-- A skip from a PC that a fetch has just advanced stays in its bound. -/
theorem Invariant.skipIf (h : Invariant s) (hpc : s.pc.toNat ≤ 0x1000) (c : Bool) : Invariant (s.skipIf c) := by
  cases c with
  | false => exact h
  | true =>
    refine h.jump (w := s.pc + 2) ?_
    rw [BitVec.toNat_add]
    exact (Nat.mod_le _ _).trans (Nat.add_le_add_right hpc 2)

theorem Invariant.skipIf_keyDown (h : Invariant s) (hpc : s.pc.toNat ≤ 0x1000) (k : Byte) (c : Bool) :
    Invariant ((s.keyDown k).2.skipIf c) := by
  obtain ⟨d, hd⟩ := s.keyDown_shape k
  rw [hd]
  exact (h.of_bounded (t := { s with draws := d }) rfl).skipIf hpc c

theorem Invariant.stores (h : Invariant s) (bytes : List Byte) (a : Nat) :
    Invariant ((storeBytes bytes a s).finish fun _ t => t) := by
  rw [finish_storeBytes]
  exact (h.withMem (storedMem_wf s.params bytes a h.memWf)).of_bounded rfl

theorem Invariant.timerUpdate (h : Invariant s) : Invariant (Machine.timerUpdate s) := by
  obtain ⟨d, t, o, hu⟩ := timerUpdate_shape s
  rw [hu]
  exact h.of_bounded rfl

end

/-! ## The handlers -/

/-- A handler keeps the invariant from a PC that a fetch has just advanced: at most 0x1000, so that CALL pushes a bounded
return address and a skip ends at 0x1002 at most. -/
theorem Invariant.exec {s t : State} (h : Invariant s) (hpc : s.pc.toNat ≤ 0x1000) {i : Instr}
    (ht : Machine.exec i s = .next t) : Invariant t := by
  have haddr : ∀ nnn : Addr, (addrOperand nnn).toNat ≤ 0xFFF := fun nnn => by
    rw [toNat_addrOperand]
    exact Nat.le_of_lt_succ nnn.isLt
  have hmask : ∀ w : Word, (mask12 w).toNat ≤ 0xFFF := fun w => by
    rw [toNat_mask12]
    exact Nat.le_of_lt_succ (Nat.mod_lt _ (by decide))
  cases i with
  | cls => cases ht; exact h.dispClear
  | ret => cases ht; exact h.popPc
  | sys nnn => cases ht; exact h.unmatched _
  | jp nnn => cases ht; exact h.jump ((haddr nnn).trans (by decide))
  | call nnn => cases ht; exact (h.push hpc).jump ((haddr nnn).trans (by decide))
  | seByte x nn => cases ht; exact h.skipIf hpc _
  | sneByte x nn => cases ht; exact h.skipIf hpc _
  | seReg x y => cases ht; exact h.skipIf hpc _
  | sneReg x y => cases ht; exact h.skipIf hpc _
  | ldI nnn => cases ht; exact h.setI (haddr nnn)
  | jpV0 nnn => cases ht; exact h.jump ((hmask _).trans (by decide))
  | drw x y n =>
    rcases execDrw_cases n s with hok | ⟨hp, hn, hout⟩
    · cases (execDrw_ok x y n s hok).symm.trans ht
      exact (h.drawn _).of_bounded rfl
    · cases (execDrw_fault x y n s hp hn hout).symm.trans ht
      exact (h.drawn _).of_bounded rfl
  | skp x => cases ht; exact h.skipIf_keyDown hpc _ _
  | sknp x => cases ht; exact h.skipIf_keyDown hpc _ _
  | addI x => cases ht; exact h.setI (hmask _)
  | ldF x =>
    cases ht
    have hx : (s.getV x).toNat < 256 := (s.getV x).isLt
    have hglyph := toNat_byteOperand_mul_five (s.getV x)
    exact h.setI (by omega)
  | ldB x => cases ht; exact h.stores _ _
  | stRegs x => cases ht; exact h.stores _ _
  | ldRegs x =>
    have hx : 0 + (x.toNat + 1) ≤ 16 := by have := x.isLt; omega
    obtain ⟨u, hu, hrec, _⟩ := loadRegs_spec s.i.toNat (x.toNat + 1) 0 s hx (ReadsAs.refl s s.i.toNat)
    cases (congrArg Host.Outcome.next hu).symm.trans ht
    exact h.of_bounded (congrArg State.bounded hrec :)
  | _ => cases ht; exact h.of_bounded rfl

/-! ## step() and its place in the tick -/

/-- A fetch in bounds leaves PC at 0x1000 at most. -/
theorem toNat_advance_pc_le {s : State} (hc : CanFetch s) : s.advance.pc.toNat ≤ 0x1000 := by
  obtain ⟨_, _, hb⟩ := hc
  have hadd : s.advance.pc.toNat = (s.pc.toNat + 2) % 65536 := BitVec.toNat_add s.pc 2
  omega

theorem Invariant.advance {s : State} (h : Invariant s) (hc : CanFetch s) : Invariant s.advance :=
  (h.jump ((toNat_advance_pc_le hc).trans (by decide))).of_bounded rfl

theorem Invariant.coreStep {s t : State} (h : Invariant s) (ht : Machine.coreStep s = .next t) : Invariant t := by
  unfold Machine.coreStep at ht
  rcases fetchDecode_cases s with ⟨hf, _⟩ | ⟨hf, _⟩ | ⟨i, hf, hc, _⟩ | ⟨e, hf, hc, _⟩ <;> rw [hf] at ht
  · cases ht
    exact h
  · cases ht
    exact h.of_bounded rfl
  · exact (h.advance hc).exec (toNat_advance_pc_le hc) ht
  · cases ht
    exact (h.advance hc).unmatched _

theorem Invariant.endStep {s : State} (h : Invariant s) : Invariant (Machine.endStep s) := by
  rcases endStep_cases s with ⟨_, he⟩ | ⟨c, _, hlt, he⟩ | ⟨c, _, _, he⟩ <;> rw [he]
  · exact h
  · exact h.withClock fun c' hc' => .inr (Option.some.inj hc' ▸ hlt)
  · exact (h.withClock fun c' hc' => .inl (by cases hc'; rfl)).timerUpdate

/-! ## The host's events -/

theorem Invariant.hostReset {s : State} (h : Invariant s) : Invariant (Machine.hostReset s) := by
  constructor
  case memWf => rw [hostReset_mem]; exact Memory.withFont_wf _
  case rows => rw [hostReset_params]; exact h.rows
  case dispWf => rw [hostReset_disp]; rfl
  case iBound => rw [hostReset_i]; decide
  case pcBound => rw [hostReset_pc]; decide
  case stBound => intro j; simp [State.stackAt]
  case tickPos => rw [hostReset_clock]; exact h.tickPos

theorem Invariant.applyEvent {s : State} (h : Invariant s) (e : HostEvent) : Invariant (Machine.applyEvent s e) := by
  cases e with
  | reset => exact h.hostReset
  | pause =>
    simp only [Machine.applyEvent, hostPause]
    split <;> exact h.of_bounded rfl
  | resume =>
    simp only [Machine.applyEvent, hostResume]
    split <;> exact h.of_bounded rfl
  | keyPress k =>
    simp only [Machine.applyEvent, hostKeyPress]
    rcases deliverKey_cases k (s.setKey k true) with hk | ⟨x, _, _, hk⟩ <;> rw [hk] <;> exact h.of_bounded rfl
  | keyRelease k => exact h.of_bounded rfl
  | loadProgram bytes =>
    obtain ⟨m, f, g, hl, hm⟩ := hostLoad_shape bytes s
    simp only [Machine.applyEvent, hostLoadProgram, hl]
    exact (h.withMem (hm h.memWf)).of_bounded rfl
  | run r n => exact h.withClock fun c hc => .inl (by cases hc; rfl)

theorem Invariant.applyEvents {s : State} (h : Invariant s) (es : List HostEvent) : Invariant (Machine.applyEvents s es) := by
  induction es generalizing s with
  | nil => exact h
  | cons e es ih => exact ih (h.applyEvent e)

theorem Invariant.takeEvents {s : State} (h : Invariant s) : Invariant (Machine.takeEvents s) := by
  unfold Machine.takeEvents
  split
  · exact (h.of_bounded (t := { s with pending := [] }) rfl).applyEvents _
  · exact h

/-- Settles O55: the events of the boundary, step() and what follows it in the tick each keep the invariant. -/
theorem stepKeepsInvariant : Obligations.StepKeepsInvariant := by
  unfold Obligations.StepKeepsInvariant
  intro s t h ht
  rcases step_cases ht with ⟨_, u, hu, rfl⟩ | ⟨_, rfl⟩
  · exact (h.takeEvents.coreStep hu).endStep
  · exact h.takeEvents.endStep

/-- Settles O54: nothing is stored, set, pushed or running in the start state. -/
theorem resetMeetsInvariant : Obligations.ResetMeetsInvariant := by
  unfold Obligations.ResetMeetsInvariant
  refine ⟨rfl, by decide, rfl, by decide, by decide, fun j => ?_, nofun⟩
  simp [State.stackAt, State.reset]

end Sys2Proof.Machine

/-! Arithmetic with flags (43_arith_flags). The flag is written first, so the register a result reads is the old one unless
it is VF, and then it is the flag; `toNat_getV_setFlag` says that once for all five instructions. -/

namespace Sys2Proof.Machine

/-! ## The flag write, then the result (43_arith_flags R86) -/

theorem toNat_flagOf (c : Bool) : (flagOf c).toNat = c.toNat := by cases c <;> rfl

theorem State.toNat_getV_setFlag (s : State) (c : Bool) (r : Reg) :
    ((s.setFlag c).getV r).toNat = if r = VF then c.toNat else (s.getV r).toNat := by
  rw [State.setFlag, State.getV_setV]
  split
  · exact toNat_flagOf c
  · rfl

/-- A result in another register leaves the flag. -/
theorem State.getV_VF_of_flag_then_result (s : State) (c : Bool) {x : Reg} (hx : x ≠ VF) (b : Byte) :
    ((s.setFlag c).setV x b).getV VF = flagOf c := by
  rw [State.getV_setV_of_ne _ hx.symm, State.setFlag, State.getV_setV_self]

theorem State.toNat_getV_VF_of_flag_then_result (s : State) (c : Bool) {x : Reg} (hx : x ≠ VF) (b : Byte) :
    (((s.setFlag c).setV x b).getV VF).toNat = c.toNat := by
  rw [s.getV_VF_of_flag_then_result c hx, toNat_flagOf]

theorem Frame.flag_then_result (s : State) (c : Bool) (x : Reg) (b : Byte) :
    Frame { regs := [x, VF] } s ((s.setFlag c).setV x b) :=
  { (Frame.setV s VF (flagOf c)).trans (Frame.setV _ x b) with
    regs := fun r hr => by
      simp only [List.mem_cons, List.not_mem_nil, or_false, not_or] at hr
      rw [State.getV_setV_of_ne _ hr.1, State.setFlag, State.getV_setV_of_ne _ hr.2] }

/-! ## ADD Vx, Vy (43_arith_flags R87) -/

theorem exec_addReg (x y : Reg) (s : State) :
    exec (.addReg x y) s = .next ((s.setFlag (carries (s.getV x) (s.getV y))).setV x (s.getV x + s.getV y)) := rfl

theorem decodesAs_addReg : DecodesAs 0xF00F 0x8004 (fun f => .addReg f.x f.y) :=
  fun _ hw => decodeWord_of_index 14 rfl (by decide) hw

theorem flagOf_decide (p : Prop) [Decidable p] : flagOf (decide p) = if p then 1 else 0 := by
  by_cases h : p <;> simp [flagOf, h]

/-- Settles O26: sum and carry are those of the old values, since both are computed before the flag is written. -/
theorem addSetsCarry : Obligations.AddSetsCarry := by
  unfold Obligations.AddSetsCarry
  refine ⟨decodesAs_addReg, fun x y s => ⟨_, exec_addReg x y s, ?sum, fun hx => ?carry, Frame.flag_then_result s _ x _⟩⟩
  case sum => rw [State.getV_setV_self, BitVec.toNat_add]
  case carry => rw [s.getV_VF_of_flag_then_result _ hx, carries, flagOf_decide]

/-! ## SUB Vx, Vy and SUBN Vx, Vy (43_arith_flags R88, R89) -/

theorem exec_subReg (x y : Reg) (s : State) :
    exec (.subReg x y) s = .next ((s.setFlag (noBorrow (s.getV x) (s.getV y))).subInto x x y) := rfl

theorem exec_subn (x y : Reg) (s : State) :
    exec (.subn x y) s = .next ((s.setFlag (noBorrow (s.getV y) (s.getV x))).subInto x y x) := rfl

theorem decodesAs_subReg : DecodesAs 0xF00F 0x8005 (fun f => .subReg f.x f.y) :=
  fun _ hw => decodeWord_of_index 15 rfl (by decide) hw

theorem decodesAs_subn : DecodesAs 0xF00F 0x8007 (fun f => .subn f.x f.y) :=
  fun _ hw => decodeWord_of_index 17 rfl (by decide) hw

theorem toNat_noBorrow (a b : Byte) : (noBorrow a b).toNat = if a.toNat ≥ b.toNat then 1 else 0 := by
  unfold noBorrow
  split <;> simp [*]

/-- The result is the difference of the operands as they read after the flag write. -/
theorem State.toNat_getV_subInto (s : State) (c : Bool) (x a b : Reg) :
    (((s.setFlag c).subInto x a b).getV x).toNat =
      ((if a = VF then c.toNat else (s.getV a).toNat) + 256 - (if b = VF then c.toNat else (s.getV b).toNat)) % 256 := by
  have hb := ((s.setFlag c).getV b).isLt
  rw [State.subInto, State.getV_setV_self, BitVec.toNat_sub, ← s.toNat_getV_setFlag c a, ← s.toNat_getV_setFlag c b]
  omega

/-- Settles O27: the difference V[X] - V[Y] as it reads after the flag write. -/
theorem subSetsNoBorrow : Obligations.SubSetsNoBorrow := by
  unfold Obligations.SubSetsNoBorrow
  refine ⟨decodesAs_subReg, fun x y s flag a b hflag ha hb => ?_⟩
  rw [← toNat_noBorrow] at hflag
  subst hflag ha hb
  exact ⟨_, exec_subReg x y s, s.toNat_getV_subInto _ x x y, fun hx => s.toNat_getV_VF_of_flag_then_result _ hx _,
    Frame.flag_then_result s _ x _⟩

/-- Settles O28: the difference V[Y] - V[X] as it reads after the flag write. -/
theorem subnSetsNoBorrow : Obligations.SubnSetsNoBorrow := by
  unfold Obligations.SubnSetsNoBorrow
  refine ⟨decodesAs_subn, fun x y s flag a b hflag ha hb => ?_⟩
  rw [← toNat_noBorrow] at hflag
  subst hflag ha hb
  exact ⟨_, exec_subn x y s, s.toNat_getV_subInto _ x y x, fun hx => s.toNat_getV_VF_of_flag_then_result _ hx _,
    Frame.flag_then_result s _ x _⟩

/-! ## SHR Vx and SHL Vx (43_arith_flags R90, R91) -/

theorem exec_shr (x y : Reg) (s : State) :
    exec (.shr x y) s = .next ((s.setFlag (lowBit (s.getV x))).shrInto x) := rfl

theorem exec_shl (x y : Reg) (s : State) :
    exec (.shl x y) s = .next ((s.setFlag (highBit (s.getV x))).shlInto x) := rfl

theorem decodesAs_shr : DecodesAs 0xF00F 0x8006 (fun f => .shr f.x f.y) :=
  fun _ hw => decodeWord_of_index 16 rfl (by decide) hw

theorem decodesAs_shl : DecodesAs 0xF00F 0x800E (fun f => .shl f.x f.y) :=
  fun _ hw => decodeWord_of_index 18 rfl (by decide) hw

theorem toNat_lowBit (a : Byte) : (lowBit a).toNat = a.toNat % 2 := by
  rw [lowBit, BitVec.getLsbD, Nat.testBit_zero]
  rcases Nat.mod_two_eq_zero_or_one a.toNat with h | h <;> rw [h] <;> rfl

theorem toNat_highBit (a : Byte) : (highBit a).toNat = a.toNat / 128 := by
  have ha := a.isLt
  rw [highBit, BitVec.getLsbD, Nat.testBit_eq_decide_div_mod_eq]
  obtain h | h : a.toNat / 2 ^ 7 = 0 ∨ a.toNat / 2 ^ 7 = 1 := by omega
  all_goals rw [show (128 : Nat) = 2 ^ 7 from rfl, h]; rfl

theorem State.toNat_getV_shrInto (s : State) (c : Bool) (x : Reg) :
    (((s.setFlag c).shrInto x).getV x).toNat = if x = VF then 0 else (s.getV x).toNat / 2 := by
  rw [State.shrInto, State.getV_setV_self, BitVec.toNat_ushiftRight, Nat.shiftRight_one, s.toNat_getV_setFlag c x]
  split
  · cases c <;> rfl
  · rfl

theorem State.toNat_getV_shlInto (s : State) (c : Bool) (x : Reg) :
    (((s.setFlag c).shlInto x).getV x).toNat = if x = VF then 2 * c.toNat else 2 * (s.getV x).toNat % 256 := by
  rw [State.shlInto, State.getV_setV_self, BitVec.toNat_shiftLeft, Nat.shiftLeft_eq, s.toNat_getV_setFlag c x]
  split
  · cases c <;> rfl
  · rw [Nat.mul_comm, pow_one]

/-- Settles O29: the shift reads V[X] after the flag write, so for X = 15 it shifts the flag. -/
theorem shiftsInPlace : Obligations.ShiftsInPlace := by
  unfold Obligations.ShiftsInPlace
  refine ⟨⟨decodesAs_shr, decodesAs_shl⟩, fun x y s =>
    ⟨⟨_, exec_shr x y s, s.toNat_getV_shrInto _ x, fun hx => ?low, Frame.flag_then_result s _ x _⟩,
      ⟨_, exec_shl x y s, ?shl, fun hx => ?high, Frame.flag_then_result s _ x _⟩⟩⟩
  case low => rw [← toNat_lowBit]; exact s.toNat_getV_VF_of_flag_then_result _ hx _
  case high => rw [← toNat_highBit]; exact s.toNat_getV_VF_of_flag_then_result _ hx _
  case shl => rw [s.toNat_getV_shlInto, toNat_highBit]

end Sys2Proof.Machine

/-! The instructions that are one or two of the shared operations: SYS and CLS (40_control_flow), CALL and RET in a row,
SKP, SKNP and LD Vx, K (47_input), RND (45_random), the timer operations (48_timer_ops). -/

namespace Sys2Proof.Machine

/-! ## SYS addr and CLS (40_control_flow R67, R68) -/

theorem exec_sys (nnn : Addr) (s : State) : exec (.sys nnn) s = .next (s.unmatched (wordNNN 0x0#4 nnn)) := rfl

theorem exec_cls (s : State) : exec .cls s = .next s.dispClear := rfl

theorem decodesAs_cls : DecodesAs 0xFFFF 0x00E0 (fun _ => .cls) :=
  fun _ hw => decodeWord_of_index 0 rfl (by decide) hw

theorem wordNNN_zero (nnn : Addr) : wordNNN 0x0#4 nnn = nnn.setWidth 16 := (BitVec.setWidth_eq_append (by decide)).symm

/-- Settles O14: every other word of the row is SYS, and SYS is `State.unmatched` on its own word. -/
theorem sysIsAnUnmatchedWord : Obligations.SysIsAnUnmatchedWord := by
  unfold Obligations.SysIsAnUnmatchedWord
  refine ⟨fun w => decodeWord_sys, fun nnn s => ⟨fun hp => ?noop, fun hp => ?refuse⟩⟩
  case noop => rw [exec_sys, s.unmatched_noop hp]
  case refuse => rw [exec_sys, s.unmatched_refuse hp, wordNNN_zero]; rfl

/-- Settles O15: CLS is `State.dispClear`. -/
theorem clsClearsDisplay : Obligations.ClsClearsDisplay := by
  unfold Obligations.ClsClearsDisplay
  exact ⟨decodesAs_cls, fun s => ⟨_, exec_cls s, fun _ => rfl, s.dispClear_outputs, Frame.dispClear s⟩⟩

/-! ## CALL and RET in a row (10_state R26, 40_control_flow R69, R71) -/

/-- Settles O20: RET reads the slot below SP, which is the one the CALL wrote. -/
theorem retUndoesCall : Obligations.RetUndoesCall := by
  unfold Obligations.RetUndoesCall
  intro nnn s t u ht hsp hslot
  cases ht
  have hback : u.sp - 1 = s.sp := by
    rw [hsp]
    exact BitVec.add_sub_cancel s.sp 1
  refine ⟨_, exec_ret u, ?pc, hback⟩
  case pc => rw [State.popPc_pc, hback, hslot, State.jump_stackAt, State.stackAt_push_self]

section
variable {f : Nat → State} {g : Nat → Addr} {pcs : Nat → Word}
  (hcalls : ∀ k, exec (.call (g k)) { f k with pc := pcs k } = .next (f (k + 1)))
include hcalls

theorem calls_sp_succ (k : Nat) : (f (k + 1)).sp = (f k).sp + 1 := by
  rw [← Host.Outcome.next.inj (hcalls k)]
  rfl

theorem calls_stackAt_succ (k : Nat) (j : BitVec 4) :
    (f (k + 1)).stackAt j = if j = (f k).sp then pcs k else (f k).stackAt j := by
  rw [← Host.Outcome.next.inj (hcalls k)]
  exact State.stackAt_push { f k with pc := pcs k } (pcs k) j

theorem calls_sp (k : Nat) : (f k).sp = (f 0).sp + BitVec.ofNat 4 k := by
  induction k with
  | zero => exact (BitVec.add_zero _).symm
  | succ k ih => rw [calls_sp_succ hcalls, ih, BitVec.add_assoc, BitVec.ofNat_add]; rfl

/-- The second to the sixteenth CALL write other slots than the first. -/
theorem calls_first_slot {k : Nat} (hk : k < 16) : (f (k + 1)).stackAt (f 0).sp = pcs 0 := by
  induction k with
  | zero => rw [calls_stackAt_succ hcalls, if_pos rfl]
  | succ k ih =>
    have hother : (f 0).sp ≠ (f (k + 1)).sp := by
      rw [calls_sp hcalls (k + 1)]
      intro h
      have hzero : (k + 1) % 16 = 0 := congrArg BitVec.toNat (BitVec.self_eq_add_right.mp h)
      omega
    rw [calls_stackAt_succ hcalls, if_neg hother, ih (by omega)]

end

/-- Settles O21: SP comes back after 16 CALLs, so the 17th writes the first slot again. -/
theorem seventeenthCallOverwritesFirst : Obligations.SeventeenthCallOverwritesFirst := by
  unfold Obligations.SeventeenthCallOverwritesFirst
  intro f g pcs hcalls
  have hback : (f 16).sp = (f 0).sp := (calls_sp hcalls 16).trans (BitVec.add_zero _)
  refine ⟨hback, calls_first_slot hcalls (by decide), ?overwritten, ?sp⟩
  case overwritten => rw [calls_stackAt_succ hcalls, if_pos hback.symm]
  case sp => rw [calls_sp_succ hcalls, hback, calls_sp_succ hcalls 0]

/-! ## SKP Vx and SKNP Vx (47_input R100, R101) -/

theorem exec_skp (x : Reg) (s : State) :
    exec (.skp x) s = .next ((s.keyDown (s.getV x)).2.skipIf (s.keyDown (s.getV x)).1) := rfl

theorem exec_sknp (x : Reg) (s : State) :
    exec (.sknp x) s = .next ((s.keyDown (s.getV x)).2.skipIf (!(s.keyDown (s.getV x)).1)) := rfl

theorem decodesAs_skp : DecodesAs 0xF0FF 0xE09E (fun f => .skp f.x) :=
  fun _ hw => decodeWord_of_index 24 rfl (by decide) hw

theorem decodesAs_sknp : DecodesAs 0xF0FF 0xE0A1 (fun f => .sknp f.x) :=
  fun _ hw => decodeWord_of_index 25 rfl (by decide) hw

theorem State.keyDown_of_key (s : State) {c : Byte} {k : BitVec 4} (h : c.toNat = k.toNat) :
    s.keyDown c = (s.keyHeld k, s) := by
  rw [State.keyDown, if_pos (h ▸ k.isLt), h, BitVec.ofNat_toNat, BitVec.setWidth_eq]

theorem State.keyDown_of_no_key (s : State) {c : Byte} (h : 15 < c.toNat) :
    s.keyDown c = (Config.keyDownDraw s.draws, s.countDraw) := by
  rw [State.keyDown, if_neg (by omega)]

theorem State.skipIf_eq_ite (s : State) (c : Bool) : s.skipIf c = if c then { s with pc := s.pc + 2 } else s := rfl

theorem State.skipIf_draws (s : State) (c : Bool) : (s.skipIf c).draws = s.draws := by cases c <;> rfl

theorem Frame.skipIf (s : State) (c : Bool) : Frame { pc := true } s (s.skipIf c) := by
  cases c with
  | false => exact Frame.refl _ s
  | true => exact Frame.skip s

theorem Frame.countDraw_skipIf (s : State) (c : Bool) : Frame { pc := true, draws := true } s (s.countDraw.skipIf c) :=
  (Frame.countDraw s).trans (Frame.skipIf s.countDraw c)

/-- Settles O23: a code that names a key asks for that key; any other takes a draw, which is counted. -/
theorem keySkips : Obligations.KeySkips := by
  unfold Obligations.KeySkips
  refine ⟨⟨decodesAs_skp, decodesAs_sknp⟩, fun x s => ⟨fun k hk => ⟨?skp, ?sknp⟩, fun hx => ?noKey⟩⟩
  case skp => rw [exec_skp, s.keyDown_of_key hk, State.skipIf_eq_ite]
  case sknp => rw [exec_sknp, s.keyDown_of_key hk, State.skipIf_eq_ite]; cases s.keyHeld k <;> rfl
  case noKey =>
    rw [exec_skp, exec_sknp, s.keyDown_of_no_key hx]
    refine ⟨_, _, rfl, rfl, s.countDraw.skipIf_pc _, s.countDraw.skipIf_draws _, ?_, s.countDraw.skipIf_draws _,
      Frame.countDraw_skipIf s _, Frame.countDraw_skipIf s _⟩
    rw [State.skipIf_pc]
    cases Config.keyDownDraw s.draws <;> rfl

/-! ## LD Vx, K (47_input R102) -/

theorem exec_ldVxK (x : Reg) (s : State) : exec (.ldVxK x) s = .next (s.waitForKey x) := rfl

theorem decodesAs_ldVxK : DecodesAs 0xF0FF 0xF00A (fun f => .ldVxK f.x) :=
  fun _ hw => decodeWord_of_index 27 rfl (by decide) hw

/-- Settles O33: LD Vx, K is `State.waitForKey`. -/
theorem ldKWaitsForKey : Obligations.LdKWaitsForKey := by
  unfold Obligations.LdKWaitsForKey
  exact ⟨decodesAs_ldVxK, fun x s =>
    ⟨_, exec_ldVxK x s, s.waitForKey_halted x, s.waitForKey_keyWait x, Frame.waitForKey s x⟩⟩

/-! ## RND Vx, byte (45_random R96) -/

theorem exec_rnd (x : Reg) (nn : Byte) (s : State) :
    exec (.rnd x nn) s = .next (s.countDraw.setV x (Config.randomByte s.draws &&& nn)) := rfl

theorem decodesAs_rnd : DecodesAs 0xF000 0xC000 (fun f => .rnd f.x f.nn) :=
  fun _ hw => decodeWord_of_index 22 rfl (by decide) hw

theorem Frame.countDraw_setV (s : State) (x : Reg) (b : Byte) :
    Frame { regs := [x], draws := true } s (s.countDraw.setV x b) :=
  (Frame.countDraw s).trans (Frame.setV s.countDraw x b)

/-- Settles O31: the byte written is the draw and NN, bit by bit. -/
theorem rndMasksADraw : Obligations.RndMasksADraw := by
  unfold Obligations.RndMasksADraw
  refine ⟨decodesAs_rnd, fun x nn s => ⟨_, exec_rnd x nn s, fun k => ?_, rfl, Frame.countDraw_setV s x _⟩⟩
  rw [State.getV_setV_self, BitVec.getLsbD_and]

/-! ## The timer operations (48_timer_ops R103 to R105) -/

theorem exec_ldVxDt (x : Reg) (s : State) : exec (.ldVxDt x) s = .next (s.setV x s.dt) := rfl

theorem exec_ldDt (x : Reg) (s : State) : exec (.ldDt x) s = .next { s with dt := s.getV x } := rfl

theorem exec_ldSt (x : Reg) (s : State) : exec (.ldSt x) s = .next { s with st := s.getV x } := rfl

theorem decodesAs_ldVxDt : DecodesAs 0xF0FF 0xF007 (fun f => .ldVxDt f.x) :=
  fun _ hw => decodeWord_of_index 26 rfl (by decide) hw

theorem decodesAs_ldDt : DecodesAs 0xF0FF 0xF015 (fun f => .ldDt f.x) :=
  fun _ hw => decodeWord_of_index 28 rfl (by decide) hw

theorem decodesAs_ldSt : DecodesAs 0xF0FF 0xF018 (fun f => .ldSt f.x) :=
  fun _ hw => decodeWord_of_index 29 rfl (by decide) hw

theorem Frame.setDt (s : State) (b : Byte) : Frame { dt := true } s { s with dt := b } :=
  { Frame.refl { dt := true } s with dt := nofun }

theorem Frame.setSt (s : State) (b : Byte) : Frame { st := true } s { s with st := b } :=
  { Frame.refl { st := true } s with st := nofun }

/-- Settles O32: each is one field update. -/
theorem timerOps : Obligations.TimerOps := by
  unfold Obligations.TimerOps
  exact ⟨⟨decodesAs_ldVxDt, decodesAs_ldDt, decodesAs_ldSt⟩, fun x s =>
    ⟨⟨_, exec_ldVxDt x s, s.getV_setV_self x _, Frame.setV s x _⟩, ⟨_, exec_ldDt x s, rfl, Frame.setDt s _⟩,
      ⟨_, exec_ldSt x s, rfl, Frame.setSt s _⟩⟩⟩

end Sys2Proof.Machine

/-! Reads and writes of memory: one byte (20_memory R39), LD Vx, [I] under each value of OOR_ACCESS (49_bcd_block R108), and
what a store followed by a load or a fetch gives (R107, R108, 20_memory R50). -/

namespace Sys2Proof.Machine

/-! ## One byte (20_memory R39) -/

theorem State.memWrite_inRange (s : State) {a : Nat} (h : a < 4096) (b : Byte) :
    s.memWrite a b = .done () (s.setByte a b) := if_pos h

theorem State.byteAt_setByte {s : State} (hw : Memory.wf s.mem = true) (a c : Nat) (b : Byte) :
    (s.setByte a b).byteAt c = if c = a then b else s.byteAt c := Memory.read_write hw a c b

/-- Settles O34: in range a write is `State.setByte` and a read is `State.byteAt`. -/
theorem writeThenRead : Obligations.WriteThenRead := by
  unfold Obligations.WriteThenRead
  intro s a b hw ha
  refine ⟨_, s.memWrite_inRange ha b, Memory.write_wf b hw ha, fun c hc => ?_⟩
  rw [State.memRead_inRange _ hc, State.byteAt_setByte hw]

/-! ## The bytes of a block by OOR_ACCESS (20_memory R46) -/

theorem rowByte_inRange (s : State) {a r : Nat} (h : a + r < 4096) : rowByte s a r = s.byteAt (a + r) := if_pos h

theorem rowByte_wrap {s : State} (hp : s.params.oorAccess = .wrap) (a r : Nat) :
    rowByte s a r = s.byteAt ((a + r) % 4096) := by
  by_cases h : a + r < 4096
  · rw [rowByte_inRange s h, Nat.mod_eq_of_lt h]
  · simp [rowByte, h, hp]

theorem rowByte_drop {s : State} (hp : s.params.oorAccess = .drop) {a r : Nat} (h : 4096 ≤ a + r) :
    rowByte s a r = Config.droppedRead (s.draws + (a + r - firstOutOfRange a)) := by
  simp [rowByte, Nat.not_lt.mpr h, hp]

theorem drawsBefore_of_ne_drop {s : State} (hp : s.params.oorAccess ≠ .drop) (a k : Nat) : drawsBefore s a k = s.draws := by
  simp [drawsBefore, hp]

theorem drawsBefore_drop {s : State} (hp : s.params.oorAccess = .drop) (a k : Nat) :
    drawsBefore s a k = s.draws + (a + k - firstOutOfRange a) := by
  simp [drawsBefore, hp]

/-! ## LD Vx, [I] (49_bcd_block R108) -/

theorem decodesAs_ldRegs : DecodesAs 0xF0FF 0xF065 (fun f => .ldRegs f.x) :=
  fun _ hw => decodeWord_of_index 34 rfl (by decide) hw

/-- A load changes registers up to V[X], the draws and `faulted`; a register of the block whose read does not end the step
holds the byte read for it. -/
theorem exec_ldRegs (x : Reg) (s : State) :
    ∃ t, exec (.ldRegs x) s = .next t ∧
      t = { s with
        v := t.v
        draws := drawsBefore s s.i.toNat (x.toNat + 1)
        faulted := if 4096 < s.i.toNat + x.toNat + 1 ∧ s.params.oorAccess = .fault
          then some (.outOfRange (firstOutOfRange s.i.toNat)) else s.faulted } ∧
      ∀ k : Reg, t.getV k =
        if k.toNat ≤ x.toNat ∧ (s.i.toNat + k.toNat < 4096 ∨ s.params.oorAccess ≠ .fault)
        then rowByte s s.i.toNat k.toNat else s.getV k := by
  have hx : 0 + (x.toNat + 1) ≤ 16 := by have := x.isLt; omega
  obtain ⟨t, ht, hrec, hv⟩ := loadRegs_spec s.i.toNat (x.toNat + 1) 0 s hx (ReadsAs.refl s s.i.toNat)
  refine ⟨t, congrArg _ ht, ?_, fun k => ?_⟩
  · simpa [Nat.add_assoc] using hrec
  · simpa [Nat.lt_succ_iff] using hv k

/-- The registers a block transfer names (49_bcd_block R107). -/
theorem mem_range_map_ofNat {x r : Reg} : r ∈ (List.range (x.toNat + 1)).map (BitVec.ofNat 4) ↔ r.toNat ≤ x.toNat := by
  simp only [List.mem_map, List.mem_range]
  constructor
  · rintro ⟨k, hk, rfl⟩
    exact (Nat.mod_le k _).trans (Nat.le_of_lt_succ hk)
  · exact fun h => ⟨r.toNat, Nat.lt_succ_of_le h, by rw [BitVec.ofNat_toNat, BitVec.setWidth_eq]⟩

theorem Frame.exec_ldRegs {x : Reg} {s t : State} (ht : exec (.ldRegs x) s = .next t) :
    Frame { regs := (List.range (x.toNat + 1)).map (BitVec.ofNat 4), draws := true, faulted := true } s t := by
  obtain ⟨u, hu, hrec, hv⟩ := Machine.exec_ldRegs x s
  obtain rfl : u = t := Host.Outcome.next.inj (hu.symm.trans ht)
  have hregs : ∀ r, r ∉ (List.range (x.toNat + 1)).map (BitVec.ofNat 4) → u.getV r = s.getV r := fun r hr =>
    (hv r).trans (if_neg fun h => hr (mem_range_map_ofNat.mpr h.1))
  rw [hrec]
  exact { Frame.refl { draws := true, faulted := true } s with regs := hregs, draws := nofun, faulted := nofun }

/-- Settles O37: the byte of each register, by the value of OOR_ACCESS. -/
theorem ldVxILoadsRegisters : Obligations.LdVxILoadsRegisters := by
  unfold Obligations.LdVxILoadsRegisters
  refine ⟨decodesAs_ldRegs, fun x s => ?_⟩
  obtain ⟨t, ht, hrec, hv⟩ := exec_ldRegs x s
  have hdraws : t.draws = drawsBefore s s.i.toNat (x.toNat + 1) := congrArg State.draws hrec
  have hfaulted : s.params.oorAccess ≠ .fault → t.faulted = s.faulted := fun hp =>
    (congrArg State.faulted hrec).trans (if_neg fun h => hp h.2)
  have hread : ∀ k : Reg, k.toNat ≤ x.toNat → (s.i.toNat + k.toNat < 4096 ∨ s.params.oorAccess ≠ .fault) →
      t.getV k = rowByte s s.i.toNat k.toNat := fun k hk ok => (hv k).trans (if_pos ⟨hk, ok⟩)
  refine ⟨t, ht, ?_⟩
  constructor
  case inRange => exact fun k hk hr => (hread k hk (.inl hr)).trans (rowByte_inRange s hr)
  case fault =>
    intro hp
    refine ⟨?_, ?_, fun k hk => ?_⟩
    · rw [hdraws, drawsBefore_of_ne_drop (by simp [hp])]
    · rw [show t.faulted = _ from congrArg State.faulted hrec]
      by_cases hfits : s.i.toNat + x.toNat < 4096
      · rw [if_pos hfits, if_neg (by omega)]
      · rw [if_neg hfits, if_pos ⟨by omega, hp⟩]
    · rw [hv k, if_neg]
      rintro ⟨_, hr | hne⟩
      · omega
      · exact hne hp
  case wrap =>
    intro hp
    refine ⟨?_, hfaulted (by simp [hp]), fun k hk => ?_⟩
    · rw [hdraws, drawsBefore_of_ne_drop (by simp [hp])]
    · rw [hread k hk (.inr (by simp [hp])), rowByte_wrap hp]
  case drop =>
    intro hp
    refine ⟨hfaulted (by simp [hp]), ?_, fun k hk hr => ?_⟩
    · rw [hdraws, drawsBefore_drop hp]
      rfl
    · rw [hread k hk (.inr (by simp [hp])), rowByte_drop hp hr]
  case others => exact fun k hk => (hv k).trans (if_neg fun h => absurd h.1 (by omega))
  case frame => exact Frame.exec_ldRegs ht

/-! ## After LD [I], Vx in range (49_bcd_block R107, 20_memory R50) -/

theorem storesBlock_of_exec_stRegs {x : Reg} {s t : State} (hw : Memory.wf s.mem = true)
    (ht : exec (.stRegs x) s = .next t) : StoresBlock (s.regsUpTo x) s.i.toNat s t := by
  obtain ⟨u, hu, _, hstores⟩ := ldIVxStoresRegisters.2 x s _ hw (s.length_regsUpTo x) fun _ => s.getElem?_regsUpTo
  exact Host.Outcome.next.inj (hu.symm.trans ht) ▸ hstores

theorem byteAt_of_exec_stRegs {x k : Reg} {s t : State} (hw : Memory.wf s.mem = true)
    (ht : exec (.stRegs x) s = .next t) (hk : k.toNat ≤ x.toNat) (hr : s.i.toNat + k.toNat < 4096) :
    t.byteAt (s.i.toNat + k.toNat) = s.getV k :=
  (storesBlock_of_exec_stRegs hw ht).inRange _ _ (s.getElem?_regsUpTo hk) hr

/-- Settles O38: the byte at I + K is V[K] after the store, and V[K] is the byte at I + K after the load. -/
theorem loadUndoesStore : Obligations.LoadUndoesStore := by
  unfold Obligations.LoadUndoesStore
  intro x s t u hw hr ht hmem hi
  obtain ⟨r, hexec, hloads⟩ := ldVxILoadsRegisters.2 x u
  have hui : u.i = s.i := hi.trans ((storesBlock_of_exec_stRegs hw ht).frame.i rfl)
  refine ⟨r, hexec, fun k hk => ?_⟩
  have hrk : s.i.toNat + k.toNat < 4096 := by omega
  calc r.getV k = u.byteAt (s.i.toNat + k.toNat) := by rw [← hui] at hrk ⊢; exact hloads.inRange k hk hrk
    _ = t.byteAt (s.i.toNat + k.toNat) := by rw [State.byteAt, State.byteAt, hmem]
    _ = s.getV k := byteAt_of_exec_stRegs hw ht hk hrk

/-- Settles O39: the store leaves PC, and the two bytes at it are V0 and V1. -/
theorem storedWordIsFetchedNext : Obligations.StoredWordIsFetchedNext := by
  unfold Obligations.StoredWordIsFetchedNext
  intro x s t hw hx hi hr ht hf hh i hd
  have hpc : t.pc = s.pc := (storesBlock_of_exec_stRegs hw ht).frame.pc rfl
  rw [← hi] at hr
  have hhigh : t.byteAt s.i.toNat = s.getV 0 := byteAt_of_exec_stRegs (k := 0) hw ht (Nat.zero_le _) (by simp; omega)
  have hlow : t.byteAt (s.i.toNat + 1) = s.getV 1 := byteAt_of_exec_stRegs (k := 1) hw ht hx (by simp; omega)
  have hword : t.fetchWord = s.getV 0 ++ s.getV 1 := by
    rw [State.fetchWord, hpc, ← hi, hhigh, hlow]
    rfl
  exact coreStep_run ⟨hf, hh, by rw [hpc, ← hi]; omega⟩ (hword ▸ hd)

end Sys2Proof.Machine

/-! DRW (46_sprite_draw). Where no row faults it is the toggles of the sprite's points, the flag and a present; what the toggles
do to each pixel and when they collide stands in the laws of drawing. -/

namespace Sys2Proof.Machine

theorem decodesAs_drw : DecodesAs 0xF000 0xD000 (fun f => .drw f.x f.y f.n) :=
  fun _ hw => decodeWord_of_index 23 rfl (by decide) hw

/-! ## Where no row faults (46_sprite_draw R98) -/

theorem exec_drw_ok (x y : Reg) (n : Nibble) (s : State)
    (ok : n = 0 ∨ s.i.toNat + n.toNat ≤ 4096 ∨ s.params.oorAccess ≠ .fault) :
    exec (.drw x y n) s = .next (finishDraw
      (hitAfter s.params s.disp (spritePoints s s.i.toNat (s.getV x).toNat (s.getV y).toNat n.toNat))
      { s.drawn (spritePoints s s.i.toNat (s.getV x).toNat (s.getV y).toNat n.toNat) with
        draws := drawsBefore s s.i.toNat n.toNat }) := execDrw_ok x y n s ok

section
variable (s : State) (pts : List (Nat × Nat)) (hit : Bool) (d : Nat)

theorem finishDraw_getV_VF : (finishDraw hit { s.drawn pts with draws := d }).getV VF = flagOf hit :=
  State.getV_setV_self _ VF _

theorem Frame.drawn : Frame { disp := true, outputs := true } s (s.drawn pts) :=
  { Frame.refl { disp := true, outputs := true } s with disp := nofun, outputs := nofun }

theorem Frame.setDraws : Frame { draws := true } s { s with draws := d } :=
  { Frame.refl { draws := true } s with draws := nofun }

theorem Frame.finishDraw : Frame { regs := [VF], disp := true, outputs := true, draws := true } s
    (finishDraw hit { s.drawn pts with draws := d }) :=
  (((Frame.drawn s pts).trans (Frame.setDraws (s.drawn pts) d)).trans
    (Frame.setV _ VF (flagOf hit))).trans (Frame.emit _ .dispPresent)

end

/-- Settles O40: the fields of `finishDraw` on the drawn state. -/
theorem drwTogglesSprite : Obligations.DrwTogglesSprite := by
  unfold Obligations.DrwTogglesSprite
  refine ⟨decodesAs_drw, fun x y n s pts hh hw ok hpts => ?_⟩
  subst hpts
  refine ⟨_, exec_drw_ok x y n s ok, s.pixel_drawn hh hw _, fun hc => ?hit, fun hc => ?miss, rfl, rfl,
    dispAfter_wf hh _ hw, Frame.finishDraw s _ _ _⟩
  case hit => rw [finishDraw_getV_VF, (hitAfter_iff hh hw _).mpr hc]; rfl
  case miss => rw [finishDraw_getV_VF, Bool.eq_false_iff.mpr (mt (hitAfter_iff hh hw _).mp hc)]; rfl

/-- The same, for a drawing known by its result. -/
theorem drwTogglesSprite_of_exec {x y : Reg} {n : Nibble} {s t : State} (hh : 0 < s.params.displayHeight)
    (hw : Bitmap.wf s.pixels s.disp = true) (ok : n = 0 ∨ s.i.toNat + n.toNat ≤ 4096 ∨ s.params.oorAccess ≠ .fault)
    {pts : List (Nat × Nat)} (hpts : pts = spritePoints s s.i.toNat (s.getV x).toNat (s.getV y).toNat n.toNat)
    (ht : exec (.drw x y n) s = .next t) :
    (∀ p, t.pixel p = (s.pixel p ^^ oddHits s pts p)) ∧ (Collides s pts → t.getV VF = 1) ∧
      (¬ Collides s pts → t.getV VF = 0) ∧ Bitmap.wf t.pixels t.disp = true ∧
      Frame { regs := [VF], disp := true, outputs := true, draws := true } s t := by
  obtain ⟨u, hu, hpixel, hhit, hmiss, _, _, hwf, hframe⟩ := drwTogglesSprite.2 x y n s pts hh hw ok hpts
  obtain rfl : u = t := Host.Outcome.next.inj (hu.symm.trans ht)
  exact ⟨hpixel, hhit, hmiss, hwf, hframe⟩

/-! ## On the default screen (10_state R35) -/

theorem State.pixelOf_flatModular {s : State} (hm : s.params.displayMap = .flatModular) (q : Nat × Nat) :
    s.pixelOf q = (q.1 + 64 * q.2) % (64 * s.params.displayHeight) := by
  simp [State.pixelOf, pixelIndex, hm, Config.displayWidth]

/-- Settles O41: the points of a sprite of at most 15 rows reach pairwise different pixels, each once. -/
theorem drwOnFlatScreen : Obligations.DrwOnFlatScreen := by
  unfold Obligations.DrwOnFlatScreen
  intro x y n s t pts hm hh hw ok hpts ht
  have hn : n.toNat ≤ 15 := Nat.le_of_lt_succ n.isLt
  have hdistinct : pts.Pairwise fun p q => s.pixelOf p ≠ s.pixelOf q := hpts ▸ spritePoints_pairwise hm hh _ _ _ hn
  obtain ⟨hpixel, hhit, hmiss, _, _⟩ := drwTogglesSprite_of_exec (by omega) hw ok hpts ht
  refine ⟨fun q _ => State.pixelOf_flatModular hm q, fun p hp => ?reached, fun p hp => ?other, fun hset => ?hit,
    fun hclear => ?miss⟩
  case reached => rw [hpixel p, (oddHits_of_pairwise hdistinct p).mpr hp, Bool.xor_true]
  case other =>
    have hnone : oddHits s pts p = false := by
      rw [← Bool.not_eq_true, oddHits_of_pairwise hdistinct]
      rintro ⟨q, hq, hqp⟩
      exact hp q hq hqp
    rw [hpixel p, hnone, Bool.xor_false]
  case hit => exact hhit ((collides_of_pairwise hdistinct).mpr hset)
  case miss =>
    refine hmiss fun hc => ?_
    obtain ⟨q, hq, hset⟩ := (collides_of_pairwise hdistinct).mp hc
    exact Bool.noConfusion (hset.symm.trans (hclear q hq))

/-! ## The same sprite again (46_sprite_draw R98) -/

theorem rowByte_congr {s t : State} (hbytes : ∀ a, t.byteAt a = s.byteAt a) (hparams : t.params = s.params) {a r : Nat}
    (ok : a + r < 4096 ∨ s.params.oorAccess = .wrap) : rowByte t a r = rowByte s a r := by
  rcases ok with hr | hp
  · rw [rowByte_inRange t hr, rowByte_inRange s hr, hbytes]
  · rw [rowByte_wrap hp, rowByte_wrap (hparams ▸ hp), hbytes]

theorem spritePoints_congr {s t : State} (hbytes : ∀ a, t.byteAt a = s.byteAt a) (hparams : t.params = s.params) {a n : Nat}
    (ok : n = 0 ∨ a + n ≤ 4096 ∨ s.params.oorAccess = .wrap) (x y : Nat) :
    spritePoints t a x y n = spritePoints s a x y n := by
  refine List.flatMap_congr fun r hr => ?_
  have hr : r < n := List.mem_range.mp hr
  rw [rowByte_congr hbytes hparams]
  rcases ok with rfl | hfits | hp
  · exact absurd hr (Nat.not_lt_zero r)
  · exact .inl (by omega)
  · exact .inr hp

theorem State.pixelOf_congr {s t : State} (h : t.params = s.params) (q : Nat × Nat) : t.pixelOf q = s.pixelOf q := by
  rw [State.pixelOf, State.pixelOf, h]

theorem oddHits_congr {s t : State} (h : t.params = s.params) (pts : List (Nat × Nat)) (p : Nat) :
    oddHits t pts p = oddHits s pts p := by
  simp only [oddHits, State.pixelOf_congr h]

/-- Settles O42: the second drawing has the points of the first, so each pixel is inverted twice as often, and on a clear
screen every point of the second meets a pixel that the first has set. -/
theorem drwTwiceRestores : Obligations.DrwTwiceRestores := by
  unfold Obligations.DrwTwiceRestores
  intro x y n s t u hx hy hh hw ok ht hu
  obtain ⟨pts, hpts⟩ : ∃ pts, pts = spritePoints s s.i.toNat (s.getV x).toNat (s.getV y).toNat n.toNat := ⟨_, rfl⟩
  have ok' : n = 0 ∨ s.i.toNat + n.toNat ≤ 4096 ∨ s.params.oorAccess ≠ .fault :=
    ok.imp_right (Or.imp_right fun hp => by simp [hp])
  obtain ⟨hpixel, _, _, hwt, hframe⟩ := drwTogglesSprite_of_exec hh hw ok' hpts ht
  have hparams : t.params = s.params := hframe.params
  have hi : t.i = s.i := hframe.i rfl
  have hpts' : pts = spritePoints t t.i.toNat (t.getV x).toNat (t.getV y).toNat n.toNat := by
    rw [hi, hframe.regs x (by simpa using hx), hframe.regs y (by simpa using hy), hpts]
    exact (spritePoints_congr (fun a => hframe.stored a (by simp)) hparams (ok.imp_left fun h => by simp [h]) _ _).symm
  rw [← hi, ← hparams] at ok'
  obtain ⟨hpixel', _, _, hwu, hframe'⟩ := drwTogglesSprite_of_exec (hparams ▸ hh) hwt ok' hpts' hu
  constructor
  · have hpixels : u.pixels = s.pixels := by rw [State.pixels, State.pixels, hframe'.params, hparams]
    refine Bitmap.ext_from (hpixels ▸ hwu) hw fun p => ?_
    show u.pixel p = s.pixel p
    rw [hpixel' p, hpixel p, oddHits_congr hparams, Bool.xor_assoc, Bool.xor_self, Bool.xor_false]
  · intro hclear hm hrows
    have hfirst := drwOnFlatScreen x y n s t pts hm hrows hw (by rwa [hi, hparams] at ok') hpts ht
    have hsecond := drwOnFlatScreen x y n t u pts (hparams ▸ hm) (hparams ▸ hrows) hwt ok' hpts' hu
    obtain ⟨_, hset, _, _, hmiss⟩ := hfirst
    obtain ⟨_, _, _, hhit, _⟩ := hsecond
    have hblank : ∀ p, s.pixel p = false := fun p => by rw [State.pixel, hclear]; rfl
    refine ⟨hmiss fun q _ => hblank _, fun hne => hhit ?_⟩
    obtain ⟨q, hq⟩ := List.exists_mem_of_ne_nil pts (hpts ▸ hne)
    refine ⟨q, hq, ?_⟩
    rw [State.pixelOf_congr hparams, hset _ ⟨q, hq, rfl⟩, hblank]
    rfl

/-! ## Where a row faults (60_exceptions R111) -/

/-- Settles O43: the rows in range are those of a sprite of m rows, and `raise` follows them in place of flag and present. -/
theorem drwFaultsAtFirstRowOutside : Obligations.DrwFaultsAtFirstRowOutside := by
  unfold Obligations.DrwFaultsAtFirstRowOutside
  intro x y n m s hp hn hout hm
  have hrows : m = 0 ∨ s.i.toNat + m.toNat ≤ 4096 := by
    by_cases hi : s.i.toNat ≤ 4096
    · exact .inr (by omega)
    · exact .inl (BitVec.eq_of_toNat_eq (by simp; omega))
  refine ⟨_, _, execDrw_fault x y n s hp hn hout, exec_drw_ok x y m s (hrows.imp_right .inl), ?disp, ?outputs, rfl,
    (Frame.drawn s _).trans (Frame.raise _ _)⟩
  case disp => rw [hm]; rfl
  case outputs => rw [hm]; rfl

end Sys2Proof.Machine

/-! Who may write what (10_state R18, R23, R25; 20_memory R40; 70_reset_and_hazards R138). One table says what each instruction
may touch, one theorem that it touches nothing else; each statement reads one column of the table. -/

namespace Sys2Proof.Machine

/-! ## What each instruction may touch -/

/-- The parts of s an instruction may change; for the two store instructions see `exec_frame`. -/
def touchedBy (s : State) : Instr → Touches
  | .cls => { disp := true, outputs := true }
  | .ret => { pc := true, sp := true }
  | .sys _ => { faulted := true }
  | .jp _ | .jpV0 _ | .seByte _ _ | .sneByte _ _ | .seReg _ _ | .sneReg _ _ => { pc := true }
  | .call _ => { pc := true, sp := true, slots := [s.sp] }
  | .ldByte x _ | .addByte x _ | .ldReg x _ | .orReg x _ | .andReg x _ | .xorReg x _ | .ldVxDt x => { regs := [x] }
  | .addReg x _ | .subReg x _ | .shr x _ | .subn x _ | .shl x _ => { regs := [x, VF] }
  | .ldI _ | .addI _ | .ldF _ => { i := true }
  | .rnd x _ => { regs := [x], draws := true }
  | .drw _ _ _ => { regs := [VF], disp := true, outputs := true, draws := true, faulted := true }
  | .skp _ | .sknp _ => { pc := true, draws := true }
  | .ldVxK _ => { engine := true }
  | .ldDt _ => { dt := true }
  | .ldSt _ => { st := true }
  | .ldB _ | .stRegs _ => { faulted := true }
  | .ldRegs x => { regs := (List.range (x.toNat + 1)).map (BitVec.ofNat 4), draws := true, faulted := true }

theorem Frame.unmatched (s : State) (w : Word) : Frame { faulted := true } s (s.unmatched w) := by
  rcases s.unmatched_cases w with h | h <;> rw [h]
  · exact Frame.refl _ s
  · exact Frame.raise s _

theorem Frame.skipIf_keyDown (s : State) (k : Byte) (c : Bool) :
    Frame { pc := true, draws := true } s ((s.keyDown k).2.skipIf c) := by
  obtain ⟨d, hd⟩ := s.keyDown_shape k
  rw [hd]
  exact (Frame.setDraws s d).trans (Frame.skipIf _ c)

theorem Frame.execDrw {x y : Reg} {n : Nibble} {s t : State} (ht : execDrw x y n s = .next t) :
    Frame { regs := [VF], disp := true, outputs := true, draws := true, faulted := true } s t := by
  rcases execDrw_cases n s with hok | ⟨hp, hn, hout⟩
  · rw [← Host.Outcome.next.inj ((execDrw_ok x y n s hok).symm.trans ht)]
    exact { Frame.finishDraw s _ _ _ with faulted := nofun }
  · rw [← Host.Outcome.next.inj ((execDrw_fault x y n s hp hn hout).symm.trans ht)]
    exact { (Frame.drawn s _).trans (Frame.raise _ _) with
      regs := fun r hr => rfl, draws := nofun }

/-- An instruction touches nothing outside its line of the table; the two stores change memory and `faulted` alone. -/
theorem exec_frame {i : Instr} {s t : State} (ht : exec i s = .next t) :
    Frame (touchedBy s i) s t ∨ (∃ x, i = .ldB x ∨ i = .stRegs x) ∧ ∃ m g, t = { s with mem := m, faulted := g } := by
  cases i with
  | ldB x => exact .inr ⟨⟨x, .inl rfl⟩, _, _, (Host.Outcome.next.inj ht).symm.trans (finish_storeBytes _ _ s)⟩
  | stRegs x => exact .inr ⟨⟨x, .inr rfl⟩, _, _, (Host.Outcome.next.inj ht).symm.trans (finish_storeBytes _ _ s)⟩
  | drw x y n => exact .inl (Frame.execDrw ht)
  | ldRegs x => exact .inl (Frame.exec_ldRegs ht)
  | cls => cases ht; exact .inl (Frame.dispClear s)
  | ret => cases ht; exact .inl (Frame.popPc s)
  | sys nnn => cases ht; exact .inl (Frame.unmatched s _)
  | jp nnn => cases ht; exact .inl (Frame.jump s _)
  | call nnn => cases ht; exact .inl ((Frame.push s s.pc).trans (Frame.jump _ _))
  | seByte x nn => cases ht; exact .inl (Frame.skipIf s _)
  | sneByte x nn => cases ht; exact .inl (Frame.skipIf s _)
  | seReg x y => cases ht; exact .inl (Frame.skipIf s _)
  | sneReg x y => cases ht; exact .inl (Frame.skipIf s _)
  | ldByte x nn => cases ht; exact .inl (Frame.setV s x _)
  | addByte x nn => cases ht; exact .inl (Frame.setV s x _)
  | ldReg x y => cases ht; exact .inl (Frame.setV s x _)
  | orReg x y => cases ht; exact .inl (Frame.setV s x _)
  | andReg x y => cases ht; exact .inl (Frame.setV s x _)
  | xorReg x y => cases ht; exact .inl (Frame.setV s x _)
  | addReg x y => cases ht; exact .inl (Frame.flag_then_result s _ x _)
  | subReg x y => cases ht; exact .inl (Frame.flag_then_result s _ x _)
  | subn x y => cases ht; exact .inl (Frame.flag_then_result s _ x _)
  | shr x y => cases ht; exact .inl (Frame.flag_then_result s _ x _)
  | shl x y => cases ht; exact .inl (Frame.flag_then_result s _ x _)
  | ldI nnn => cases ht; exact .inl (Frame.setI s _)
  | addI x => cases ht; exact .inl (Frame.setI s _)
  | ldF x => cases ht; exact .inl (Frame.setI s _)
  | jpV0 nnn => cases ht; exact .inl (Frame.jump s _)
  | rnd x nn => cases ht; exact .inl (Frame.countDraw_setV s x _)
  | skp x => cases ht; exact .inl (Frame.skipIf_keyDown s _ _)
  | sknp x => cases ht; exact .inl (Frame.skipIf_keyDown s _ _)
  | ldVxDt x => cases ht; exact .inl (Frame.setV s x _)
  | ldVxK x => cases ht; exact .inl (Frame.waitForKey s x)
  | ldDt x => cases ht; exact .inl (Frame.setDt s _)
  | ldSt x => cases ht; exact .inl (Frame.setSt s _)

/-! ## The columns of the table -/

/-- V[X] for the largest X is loaded only by LD VF, [I]. -/
theorem eq_VF_of_le {x : Reg} (h : VF.toNat ≤ x.toNat) : x = VF :=
  BitVec.eq_of_toNat_eq (Nat.le_antisymm (Nat.le_of_lt_succ x.isLt) h)

/-- Settles O44: an instruction that changes VF has VF among the registers of its line. -/
theorem onlyFlagWritersTouchVf : Obligations.OnlyFlagWritersTouchVf := by
  unfold Obligations.OnlyFlagWritersTouchVf
  intro i s t ht hchanged
  rcases exec_frame ht with hf | ⟨_, m, g, rfl⟩
  swap
  · exact absurd rfl hchanged
  have hvf : VF ∈ (touchedBy s i).regs := by_contra fun hn => hchanged (hf.regs VF hn)
  have hdest : ∀ {x : Reg}, VF ∈ [x] → x = VF := fun h => (List.mem_singleton.mp h).symm
  cases i with
  | addReg x y => exact .inl ⟨x, y, .inl rfl⟩
  | subReg x y => exact .inl ⟨x, y, .inr (.inl rfl)⟩
  | subn x y => exact .inl ⟨x, y, .inr (.inr (.inl rfl))⟩
  | shr x y => exact .inl ⟨x, y, .inr (.inr (.inr (.inl rfl)))⟩
  | shl x y => exact .inl ⟨x, y, .inr (.inr (.inr (.inr rfl)))⟩
  | drw x y n => exact .inr (.inl ⟨x, y, n, rfl⟩)
  | ldByte x nn => cases hdest hvf; exact .inr (.inr (.inl ⟨nn, .inl rfl⟩))
  | addByte x nn => cases hdest hvf; exact .inr (.inr (.inl ⟨nn, .inr (.inl rfl)⟩))
  | rnd x nn => cases hdest hvf; exact .inr (.inr (.inl ⟨nn, .inr (.inr rfl)⟩))
  | ldReg x y => cases hdest hvf; exact .inr (.inr (.inr (.inl ⟨y, .inl rfl⟩)))
  | orReg x y => cases hdest hvf; exact .inr (.inr (.inr (.inl ⟨y, .inr (.inl rfl)⟩)))
  | andReg x y => cases hdest hvf; exact .inr (.inr (.inr (.inl ⟨y, .inr (.inr (.inl rfl))⟩)))
  | xorReg x y => cases hdest hvf; exact .inr (.inr (.inr (.inl ⟨y, .inr (.inr (.inr rfl))⟩)))
  | ldVxDt x => cases hdest hvf; exact .inr (.inr (.inr (.inr (.inl rfl))))
  | ldRegs x =>
    cases eq_VF_of_le (mem_range_map_ofNat.mp hvf)
    exact .inr (.inr (.inr (.inr (.inr rfl))))
  | _ => exact absurd hvf List.not_mem_nil

/-- Settles O45: LD I, ADD I and LD F are the lines that name I. -/
theorem onlyIndexOpsTouchI : Obligations.OnlyIndexOpsTouchI := by
  unfold Obligations.OnlyIndexOpsTouchI
  intro i s t ht hchanged
  rcases exec_frame ht with hf | ⟨_, m, g, rfl⟩
  swap
  · exact absurd rfl hchanged
  cases i with
  | ldI nnn => exact .inl ⟨nnn, rfl⟩
  | addI x => exact .inr ⟨x, .inl rfl⟩
  | ldF x => exact .inr ⟨x, .inr rfl⟩
  | _ => exact absurd (hf.i rfl) hchanged

/-- Settles O46: CALL is the line that names a slot, CALL and RET are those that name SP. -/
theorem onlyCallAndRetTouchStack : Obligations.OnlyCallAndRetTouchStack := by
  unfold Obligations.OnlyCallAndRetTouchStack
  intro i s t ht
  rcases exec_frame ht with hf | ⟨_, m, g, rfl⟩
  swap
  · exact ⟨fun ⟨_, hj⟩ => absurd rfl hj, fun hsp => absurd rfl hsp⟩
  constructor
  · rintro ⟨j, hj⟩
    cases i with
    | call nnn => exact ⟨nnn, rfl⟩
    | _ => exact absurd (hf.slots j List.not_mem_nil) hj
  · intro hsp
    cases i with
    | ret => exact .inl rfl
    | call nnn => exact .inr ⟨nnn, rfl⟩
    | _ => exact absurd (hf.sp rfl) hsp

theorem touchedBy_stored (s : State) (i : Instr) : (touchedBy s i).stored = [] := by cases i <;> rfl

/-- Settles O47: no line names a byte of memory. -/
theorem onlyLdBAndLdITouchMemory : Obligations.OnlyLdBAndLdITouchMemory := by
  unfold Obligations.OnlyLdBAndLdITouchMemory
  rintro i s t ht ⟨a, ha⟩
  rcases exec_frame ht with hf | ⟨hstore, _⟩
  · exact absurd (hf.stored a (by simp [touchedBy_stored])) ha
  · exact hstore

/-- Of the instructions, LD DT and LD ST alone change a timer. -/
theorem timers_of_exec {i : Instr} {s t : State} (ht : exec i s = .next t) (hchanged : t.dt ≠ s.dt ∨ t.st ≠ s.st) :
    ∃ x, i = .ldDt x ∨ i = .ldSt x := by
  rcases exec_frame ht with hf | ⟨_, m, g, rfl⟩
  swap
  · exact absurd hchanged (by simp)
  cases i with
  | ldDt x => exact ⟨x, .inl rfl⟩
  | ldSt x => exact ⟨x, .inr rfl⟩
  | _ => exact absurd hchanged (not_or.mpr ⟨not_not.mpr (hf.dt rfl), not_not.mpr (hf.st rfl)⟩)

/-- Settles O48: a step() that runs no instruction leaves the timers too. -/
theorem timersStayWithinBatch : Obligations.TimersStayWithinBatch := by
  unfold Obligations.TimersStayWithinBatch
  intro s t ht hchanged
  rcases fetchDecode_cases s with ⟨hf, _⟩ | ⟨hf, _⟩ | ⟨i, hf, _, hd⟩ | ⟨e, hf, _, _⟩ <;> rw [coreStep, hf] at ht
  · cases ht
    exact absurd hchanged (by simp)
  · cases ht
    exact absurd hchanged (by simp)
  · obtain ⟨x, hx⟩ := timers_of_exec ht hchanged
    exact ⟨i, x, hd, hx⟩
  · cases ht
    have hu := Frame.unmatched s.advance s.fetchWord
    exact absurd hchanged (not_or.mpr ⟨not_not.mpr (hu.dt rfl), not_not.mpr (hu.st rfl)⟩)

end Sys2Proof.Machine

/-! Steps and ticks as wholes: that none stops the machine (60_exceptions R109), what they leave alone (R111, R130), and how a
step of the machine is made of events, step() and the timer update (R124, R129; 70_reset_and_hazards R134). -/

namespace Sys2Proof.Machine

/-! ## Every step answers a next state (60_exceptions R109, R116) -/

theorem exists_exec (i : Instr) (s : State) : ∃ t, exec i s = .next t :=
  let ⟨t, ht, _⟩ := exec_keeps i s
  ⟨t, ht⟩

theorem exists_coreStep (s : State) : ∃ t, coreStep s = .next t :=
  let ⟨t, ht, _⟩ := coreStep_keeps s
  ⟨t, ht⟩

/-- A step of the machine in a tick of no steps (log 12). -/
theorem step_of_not_due {s : State} (h : (takeEvents s).stepDue = false) : step s = .next (endStep (takeEvents s)) := by
  rw [step, beginStep, if_neg (by simp [h])]
  rfl

/-- Settles O9: a step of the machine is step() or nothing, between events and `endStep`. -/
theorem nothingStops : Obligations.NothingStops := by
  unfold Obligations.NothingStops
  refine ⟨exists_exec, exists_coreStep, fun s => ?_⟩
  cases hd : (takeEvents s).stepDue with
  | true =>
    obtain ⟨u, hu⟩ := exists_coreStep (takeEvents s)
    exact ⟨endStep u, by rw [step_of_due hd, hu, mapNext]⟩
  | false => exact ⟨_, step_of_not_due hd⟩

/-! ## Halted and faulted states (60_exceptions R111, R130) -/

/-- Settles O12: a halted state is one that step() leaves alone. -/
theorem haltedTickOnlyCountsTimers : Obligations.HaltedTickOnlyCountsTimers := by
  unfold Obligations.HaltedTickOnlyCountsTimers
  intro s n hh
  have hfixed : coreStep s = .next s := by
    by_cases hf : s.faulted = none
    · exact coreStep_halted hf hh
    · exact coreStep_faulted hf
  exact ⟨repeatSteps_of_fixed hfixed n, tick_of_fixed hfixed n⟩

theorem hostLoad_faulted {s : State} (h : s.faulted ≠ none) (bytes : Option (List Byte)) : (hostLoad bytes s).2 = s := by
  have hs : s.faulted.isSome = true := Option.isSome_iff_ne_none.mpr h
  unfold hostLoad
  split
  · rfl
  · rw [if_pos hs]
    split <;> rfl

/-- In a frozen state an event other than reset() reaches the keys, the requests and the loop's clock at most. -/
theorem applyEvent_faulted {s : State} (h : s.faulted ≠ none) {e : HostEvent} (he : e ≠ .reset) :
    ∃ k o c, applyEvent s e = { s with keys := k, outputs := o, clock := c } := by
  cases e with
  | reset => exact absurd rfl he
  | pause => exact ⟨_, _, _, hostPause_faulted h⟩
  | resume => exact ⟨_, _, _, hostResume_faulted h⟩
  | keyPress k => exact ⟨_, _, _, hostKeyPress_of_not_waiting (.inl h) k⟩
  | keyRelease k => exact ⟨_, _, _, rfl⟩
  | loadProgram bytes =>
    exact ⟨_, _, _, congrArg (State.emit · (.loadReturned (hostLoad bytes s).1)) (hostLoad_faulted h bytes)⟩
  | run r n => exact ⟨_, _, _, rfl⟩

/-- Settles O13: steps, ticks and the timer update leave a frozen state alone, an event reaches no element of R14's record. -/
theorem faultedStateIsFrozen : Obligations.FaultedStateIsFrozen := by
  unfold Obligations.FaultedStateIsFrozen
  refine fun s h => ⟨fun n => ⟨repeatSteps_faulted h n, tick_faulted h n⟩, timerUpdate_faulted h, fun e he => ?_⟩
  obtain ⟨k, o, c, happly⟩ := applyEvent_faulted h he
  rw [happly]
  exact ⟨rfl, rfl, rfl, rfl, rfl, rfl, rfl, rfl, rfl, rfl, rfl, rfl, rfl⟩

/-! ## A step of the machine around step() (30_encoding R59, 60_exceptions R129) -/

theorem decodeWord_of_decode {hi lo : Byte} {bytes rest : List Byte} {i : Instr}
    (h : decode (hi :: lo :: bytes) = .ok (i, rest)) : decodeWord (wordOfBytes hi lo) = .ok i := by
  cases hd : decodeWord (wordOfBytes hi lo) with
  | ok j => rw [decode_pair hi lo bytes hd] at h; cases h; rfl
  | error e => rw [decode_pair_error hi lo bytes hd] at h; cases h

/-- Settles O7: the step is due, so it is step() on the state after the events, which runs i. -/
theorem stepRunsDecodedInstruction : Obligations.StepRunsDecodedInstruction := by
  unfold Obligations.StepRunsDecodedInstruction
  intro s i rest hdue hc hd
  rw [step_of_due hdue, coreStep_run hc (decodeWord_of_decode hd)]
  rfl

/-- Settles O8: no event is taken and no tick is counted. -/
theorem quietStepIsOneStep : Obligations.QuietStepIsOneStep := by
  unfold Obligations.QuietStepIsOneStep
  rintro s ⟨hpending, hclock⟩
  have htake : takeEvents s = s := takeEvents_none hpending
  have hdue : (takeEvents s).stepDue = true := by rw [htake, State.stepDue, hclock]
  obtain ⟨t, ht, _, _, htclock, _⟩ := coreStep_keeps s
  rw [step_of_due hdue, htake, ht, mapNext, endStep_noClock (htclock.trans hclock)]

/-! ## When events take effect (60_exceptions R124) -/

theorem step_pending {s t : State} (ht : step s = .next t) : t.pending = (takeEvents s).pending := by
  rcases step_cases ht with ⟨_, u, hu, rfl⟩ | ⟨_, rfl⟩
  · obtain ⟨v, hv, _, hpending, _⟩ := coreStep_keeps (takeEvents s)
    obtain rfl : v = u := Host.Outcome.next.inj (hv.symm.trans hu)
    rw [endStep_pending, hpending]
  · rw [endStep_pending]

/-- A step reads the state only after the events of its boundary. -/
theorem step_congr {s t : State} (h : takeEvents s = takeEvents t) : step s = step t := by
  rw [step, step, beginStep, beginStep, h]

theorem withPending_nil {s : State} (h : s.pending = []) : { s with pending := [] } = s := by
  cases s
  cases h
  rfl

/-- At a boundary the oldest event can be applied by itself, ahead of the others. -/
theorem takeEvents_cons {s : State} {e : HostEvent} {es : List HostEvent} (hb : s.atBoundary = true)
    (hp : s.pending = e :: es) :
    takeEvents { applyEvent { s with pending := [] } e with pending := es } = takeEvents s := by
  obtain ⟨hpending, _, hkeeps⟩ := applyEvent_keeps e { s with pending := [] }
  have hb' : State.atBoundary { applyEvent { s with pending := [] } e with pending := es } = true := hkeeps hb
  rw [takeEvents, takeEvents, if_pos hb, if_pos hb', hp]
  exact congrArg (applyEvents · es) (withPending_nil hpending)

/-- Settles O60: inside a tick `takeEvents` does nothing; at a boundary it takes the events one by one and leaves none. -/
theorem eventsLandBetweenTicks : Obligations.EventsLandBetweenTicks := by
  unfold Obligations.EventsLandBetweenTicks
  refine ⟨fun s c hc hdone => ?inside, fun s e es hb hp => step_congr (takeEvents_cons hb hp).symm,
    fun s t hb ht => (step_pending ht).trans (takeEvents_pending hb)⟩
  case inside =>
    have htake : takeEvents s = s := takeEvents_inside (by simpa [State.atBoundary, hc] using hdone)
    exact ⟨htake, fun t ht => (step_pending ht).trans (congrArg State.pending htake)⟩

/-! ## The steps of a tick (70_reset_and_hazards R134) -/

theorem repeatSteps_withClock (n : Nat) (s : State) (c : Option Clock) :
    repeatSteps n (s.withClock c) = mapNext (State.withClock · c) (repeatSteps n s) := by
  induction n generalizing s with
  | zero => rfl
  | succ n ih =>
    obtain ⟨t, ht⟩ := exists_coreStep s
    have ht' : coreStep (s.withClock c) = .next (t.withClock c) := by rw [coreStep_withClock, ht, mapNext]
    rw [repeatSteps_succ_of_next ht, repeatSteps_succ_of_next ht', ih]

theorem repeatSteps_keeps_clock (n : Nat) (s : State) : ∃ t, repeatSteps n s = .next t ∧ t.clock = s.clock := by
  induction n generalizing s with
  | zero => exact ⟨s, rfl, rfl⟩
  | succ n ih =>
    obtain ⟨t, ht, _, _, hclock, _⟩ := coreStep_keeps s
    obtain ⟨u, hu, huclock⟩ := ih t
    exact ⟨u, (repeatSteps_succ_of_next ht n).trans hu, huclock.trans hclock⟩

/-- One step of the machine inside a tick, no event waiting. -/
theorem step_in_tick {s : State} {c : Clock} (hp : s.pending = []) (hc : s.clock = some c) (hn : 0 < c.perTick) :
    step s = mapNext endStep (coreStep s) := by
  have htake : takeEvents s = s := takeEvents_none hp
  have hdue : s.stepDue = true := by simp [State.stepDue, hc]; omega
  rw [step_of_due (htake.symm ▸ hdue), htake]

/-- The clock after one more step of the tick. -/
def Clock.counted (c : Clock) : Clock := { c with done := c.done + 1 }

theorem endStep_inside {s : State} {c : Clock} (hc : s.clock = some c) (h : c.done + 1 < c.perTick) :
    endStep s = s.withClock (some c.counted) := by
  rw [endStep, hc]
  exact if_pos h

theorem endStep_last {s : State} {c : Clock} (hc : s.clock = some c) (h : c.done + 1 = c.perTick) :
    endStep s = timerUpdate (s.withClock (some { c with done := 0 })) := by
  rw [endStep, hc]
  exact if_neg h.not_lt

/-- The rest of a tick, from its step number `done` on: the steps count themselves, and the last brings the count back to 0 and
updates the timers. -/
theorem run_rest_of_tick (m : Nat) {s : State} {c : Clock} (hp : s.pending = []) (hc : s.clock = some c)
    (hm : c.done + (m + 1) = c.perTick) {t : State} (ht : repeatSteps (m + 1) s = .next t) :
    Host.Core.run Sys2Proof.core (m + 1) s = .next (timerUpdate (t.withClock (some { c with done := 0 }))) := by
  induction m generalizing s c t with
  | zero =>
    obtain ⟨u, hu, _, _, huclock, _⟩ := coreStep_keeps s
    obtain rfl : u = t := Host.Outcome.next.inj ((repeatSteps_succ_of_next hu 0).symm.trans ht)
    have hstep : step s = .next (endStep u) := by rw [step_in_tick hp hc (by omega), hu, mapNext]
    rw [run_next 0 hstep, endStep_last (huclock.trans hc) (by omega)]
    rfl
  | succ m ih =>
    obtain ⟨u, hu, _, hup, huclock, _⟩ := coreStep_keeps s
    have hstep : step s = .next (endStep u) := by rw [step_in_tick hp hc (by omega), hu, mapNext]
    have hrest : repeatSteps (m + 1) u = .next t := (repeatSteps_succ_of_next hu (m + 1)).symm.trans ht
    rw [run_next (m + 1) hstep, endStep_inside (huclock.trans hc) (by omega)]
    have hcount : c.done + 1 + (m + 1) = c.perTick := by omega
    refine ih (s := u.withClock (some c.counted)) (t := t.withClock (some c.counted)) (hup.trans hp) rfl hcount ?_
    rw [repeatSteps_withClock, hrest, mapNext]

/-- Settles O51: at the start of a tick the rest of the tick is all of it, and step() does not read the clock that counts. -/
theorem stepsOfATickAreTick : Obligations.StepsOfATickAreTick := by
  unfold Obligations.StepsOfATickAreTick
  intro s rate n hp hc hn
  obtain ⟨m, rfl⟩ : ∃ m, n = m + 1 := ⟨n - 1, by omega⟩
  obtain ⟨t, ht, htclock⟩ := repeatSteps_keeps_clock (m + 1) s
  have hsame : t.withClock (some { rateHz := rate, perTick := m + 1, done := 0 }) = t := by
    rw [← hc, ← htclock]
    rfl
  rw [run_rest_of_tick m hp hc (Nat.zero_add _) ht, tick, ht, mapNext, hsame]
  rfl

end Sys2Proof.Machine

/-! The timers (60_exceptions R117, R118): the update as two counts, and what many of them leave. -/

namespace Sys2Proof.Machine

/-! ## One update (60_exceptions R117) -/

theorem timerUpdate_of_live {s : State} (h : s.faulted = none) : timerUpdate s = countSound (countDelay s) := by
  simp [timerUpdate, h]

theorem toNat_pred {b : Byte} (h : b ≠ 0) : (b - 1).toNat = b.toNat - 1 := by
  have hpos : b.toNat ≠ 0 := fun hz => h (BitVec.eq_of_toNat_eq hz)
  exact BitVec.toNat_sub_of_le (Nat.one_le_iff_ne_zero.mpr hpos)

theorem toNat_countDelay_dt (s : State) : (countDelay s).dt.toNat = s.dt.toNat - 1 := by
  unfold countDelay
  split
  · next h => rw [h]; rfl
  · next h => exact toNat_pred h

theorem countDelay_st_outputs (s : State) : (countDelay s).st = s.st ∧ (countDelay s).outputs = s.outputs := by
  rcases countDelay_cases s with h | ⟨b, h⟩ <;> rw [h] <;> exact ⟨rfl, rfl⟩

theorem countSound_zero {s : State} (h : s.st = 0) : countSound s = s := if_pos h

theorem countSound_one {s : State} (h : s.st = 1) :
    countSound s = { s with st := 0, outputs := .stopTone :: .startTone :: s.outputs } := by
  rw [countSound, if_neg (by rw [h]; decide), if_pos h]
  rfl

theorem countSound_more {s : State} (h0 : s.st ≠ 0) (h1 : s.st ≠ 1) :
    countSound s = { s with st := s.st - 1, outputs := .startTone :: s.outputs } := by
  rw [countSound, if_neg h0, if_neg h1]
  rfl

/-- The sound timer counts down to 0; a request to start goes out while it was not 0, a request to stop when it becomes 0. -/
theorem countSound_spec (s : State) :
    (countSound s).dt = s.dt ∧ (countSound s).st.toNat = s.st.toNat - 1 ∧
      (countSound s).outputs =
        (if s.st.toNat = 0 then [] else if s.st.toNat = 1 then [.stopTone, .startTone] else [.startTone]) ++ s.outputs := by
  by_cases h0 : s.st = 0
  · rw [countSound_zero h0, h0]
    exact ⟨rfl, rfl, rfl⟩
  · have hn0 : s.st.toNat ≠ 0 := fun hz => h0 (BitVec.eq_of_toNat_eq hz)
    by_cases h1 : s.st = 1
    · rw [countSound_one h1, h1]
      exact ⟨rfl, rfl, rfl⟩
    · have hn1 : s.st.toNat ≠ 1 := fun hz => h1 (BitVec.eq_of_toNat_eq hz)
      rw [countSound_more h0 h1, if_neg hn0, if_neg hn1]
      exact ⟨rfl, toNat_pred h0, rfl⟩

theorem Frame.timerUpdate (s : State) : Frame { dt := true, st := true, outputs := true } s (Machine.timerUpdate s) := by
  obtain ⟨d, t, o, h⟩ := timerUpdate_shape s
  rw [h]
  exact { Frame.refl { dt := true, st := true, outputs := true } s with dt := nofun, st := nofun, outputs := nofun }

/-- Settles O49: the two counts, one after the other. -/
theorem timerUpdateCounts : Obligations.TimerUpdateCounts := by
  unfold Obligations.TimerUpdateCounts
  intro s hf
  obtain ⟨hdt, hst, houtputs⟩ := countSound_spec (countDelay s)
  obtain ⟨hst', houtputs'⟩ := countDelay_st_outputs s
  rw [hst'] at hst
  rw [hst', houtputs'] at houtputs
  rw [← timerUpdate_of_live hf] at hdt hst houtputs
  exact ⟨by rw [hdt, toNat_countDelay_dt], hst, houtputs, Frame.timerUpdate s⟩

/-! ## Many updates (60_exceptions R118) -/

theorem timerUpdate_live {s : State} (h : s.faulted = none) : (timerUpdate s).faulted = none :=
  ((Frame.timerUpdate s).faulted rfl).trans h

theorem toNat_timerUpdates_dt (m : Nat) {s : State} (hf : s.faulted = none) :
    (timerUpdates m s).dt.toNat = s.dt.toNat - m := by
  induction m generalizing s with
  | zero => rfl
  | succ m ih =>
    obtain ⟨hdt, _⟩ := timerUpdateCounts s hf
    rw [timerUpdates, ih (timerUpdate_live hf), hdt]
    omega

/-- From ST = n + 1 the updates send n + 1 requests to start and then one to stop. -/
theorem timerUpdates_tones (n : Nat) {s : State} (hf : s.faulted = none) (hst : s.st.toNat = n + 1) :
    (timerUpdates (n + 1) s).st = 0 ∧
      (timerUpdates (n + 1) s).outputs = .stopTone :: (List.replicate (n + 1) .startTone ++ s.outputs) := by
  induction n generalizing s with
  | zero =>
    obtain ⟨_, hnext, houtputs, _⟩ := timerUpdateCounts s hf
    rw [hst] at hnext houtputs
    exact ⟨BitVec.eq_of_toNat_eq hnext, houtputs⟩
  | succ n ih =>
    obtain ⟨_, hnext, houtputs, _⟩ := timerUpdateCounts s hf
    obtain ⟨h0, htones⟩ := ih (timerUpdate_live hf) (by omega)
    refine ⟨h0, htones.trans ?_⟩
    rw [houtputs, hst, List.replicate_succ' (n := n + 1), List.append_assoc]
    rfl

/-- Settles O50: n tones and a stop, while DT counts down beside them. -/
theorem soundTimerTones : Obligations.SoundTimerTones := by
  unfold Obligations.SoundTimerTones
  intro s n hf hst hn
  obtain ⟨m, rfl⟩ : ∃ m, n = m + 1 := ⟨n - 1, by omega⟩
  obtain ⟨hzero, htones⟩ := timerUpdates_tones m hf hst
  exact ⟨hzero, htones, fun k => toNat_timerUpdates_dt k hf⟩

end Sys2Proof.Machine

/-! reset() (70_reset_and_hazards R131) and loadProgram() (60_exceptions R127): what each leaves, and the first step of a
loaded program (70_reset_and_hazards R133). -/

namespace Sys2Proof.Machine

/-! ## reset() -/

theorem hostReset_byteAt (s : State) (a : Nat) :
    (hostReset s).byteAt a = if a < 80 then s.params.font.getD a 0 else 0 := by
  rw [State.byteAt, hostReset_mem, Memory.read_withFont]

theorem hostReset_getV (s : State) (r : Reg) : (hostReset s).getV r = 0 := by simp [State.getV]

theorem hostReset_stackAt (s : State) (j : BitVec 4) : (hostReset s).stackAt j = 0 := by simp [State.stackAt]

theorem hostReset_keyHeld (s : State) (k : BitVec 4) : (hostReset s).keyHeld k = s.keyHeld k := by simp [State.keyHeld]

theorem hostReset_pixel (s : State) (p : Nat) : (hostReset s).pixel p = false := by simp [State.pixel, Bitmap.isSet]

/-- Settles O52: field by field. -/
theorem resetFromAnyState : Obligations.ResetFromAnyState := by
  unfold Obligations.ResetFromAnyState
  refine fun s => ⟨fun a b ha hb => ?font, fun a ha _ => ?zero, hostReset_getV s, hostReset_stackAt s, hostReset_pixel s,
    hostReset_i s, hostReset_pc s, hostReset_sp s, hostReset_dt s, hostReset_st s, hostReset_halted s, hostReset_keyWait s,
    hostReset_fresh s, hostReset_faulted s, hostReset_outputs s, hostReset_keyHeld s⟩
  case font => rw [hostReset_byteAt, if_pos ha, List.getD_eq_getElem?_getD, hb, Option.getD_some]
  case zero => rw [hostReset_byteAt, if_neg (Nat.not_lt.mpr ha)]

/-- Settles O53: the memory of the default font lists nothing; every other field is given by reset() or kept. -/
theorem startStateIsResetState : Obligations.StartStateIsResetState := by
  unfold Obligations.StartStateIsResetState
  intro s hparams
  have hmem : Memory.withFont s.params.font = [] := by
    rw [hparams]
    exact Memory.withFont_default
  rw [hostReset, hmem, State.reset, ← hparams]
  rfl

/-! ## loadProgram() (60_exceptions R127) -/

theorem hostLoad_not_fresh {s : State} {bytes : List Byte} (hne : bytes ≠ []) (hfresh : s.fresh = false) :
    hostLoad (some bytes) s = (.memoryCorrupt, s) := by
  obtain ⟨b, bs, rfl⟩ := List.exists_cons_of_ne_nil hne
  exact if_pos hfresh

/-! On fresh memory in a state that is not frozen the load is a run of stores from 0x200. -/

section
variable {s t : State} {bytes : List Byte} (hne : bytes ≠ []) (hfresh : s.fresh = true) (hf : s.faulted = none)
include hne hfresh hf

theorem hostLoad_of_done (h : storeBytes bytes 0x200 s = .done () t) :
    hostLoad (some bytes) s = (.ok, { t with fresh := false }) := by
  obtain ⟨b, bs, rfl⟩ := List.exists_cons_of_ne_nil hne
  simp [hostLoad, hfresh, hf, Config.programBase, h]

theorem hostLoad_of_stop (h : storeBytes bytes 0x200 s = .stop t) : hostLoad (some bytes) s = (.faulted, t) := by
  obtain ⟨b, bs, rfl⟩ := List.exists_cons_of_ne_nil hne
  simp [hostLoad, hfresh, hf, Config.programBase, h]

theorem hostLoad_fits (hl : bytes.length ≤ 3584) :
    hostLoad (some bytes) s = (.ok, { s with mem := storedMem s.params bytes 0x200 s.mem, fresh := false }) :=
  hostLoad_of_done hne hfresh hf ((storeBytes_spec bytes 0x200 s).trans (if_neg (by omega)))

theorem hostLoad_too_long (hl : 3584 < bytes.length) (hp : s.params.oorAccess = .fault) :
    (hostLoad (some bytes) s).2 =
      { s with mem := storedMem s.params bytes 0x200 s.mem, faulted := some (.outOfRange 0x1000) } :=
  congrArg Prod.snd
    (hostLoad_of_stop hne hfresh hf ((storeBytes_spec bytes 0x200 s).trans (if_pos ⟨hne, by omega, hp⟩)))

end

/-- Unless it wraps, a store reaches its own address or none. -/
theorem storeTarget_eq_of_no_wrap {p : Config.Params} {a c : Nat} (h : storeTarget p a = some c)
    (ok : a < 4096 ∨ p.oorAccess ≠ .wrap) : c = a := by
  by_cases ha : a < 4096
  · exact (Option.some.inj ((storeTarget_inRange p ha).symm.trans h)).symm
  · cases hp : p.oorAccess with
    | wrap => exact absurd hp (ok.resolve_left ha)
    | fault => simp [storeTarget, ha, hp] at h
    | drop => simp [storeTarget, ha, hp] at h

theorem read_storedMem_program {p : Config.Params} {bytes : List Byte} {m : Memory} (hw : Memory.wf m = true)
    (ok : bytes.length ≤ 3584 ∨ p.oorAccess ≠ .wrap) {k : Nat} {b : Byte} (hb : bytes[k]? = some b)
    (hk : 0x200 + k < 4096) : Memory.read (storedMem p bytes 0x200 m) (0x200 + k) = b :=
  read_storedMem p bytes 0x200 hw (ok.imp_left fun h => h.trans (by decide)) hb (storeTarget_inRange p hk)

theorem read_storedMem_around {p : Config.Params} {bytes : List Byte} {m : Memory} (hw : Memory.wf m = true)
    (ok : bytes.length ≤ 3584 ∨ p.oorAccess ≠ .wrap) {a : Nat} (ha : a < 0x200 ∨ 0x200 + bytes.length ≤ a) :
    Memory.read (storedMem p bytes 0x200 m) a = Memory.read m a := by
  refine read_storedMem_other p bytes 0x200 a hw fun k hk ht => ?_
  have hat : a = 0x200 + k := storeTarget_eq_of_no_wrap ht (ok.imp_left fun h => by omega)
  omega

/-- Settles O58: two refusals, a run of stores that fits, one that ends at 0x1000. -/
theorem loadProgramWritesFrom200 : Obligations.LoadProgramWritesFrom200 := by
  unfold Obligations.LoadProgramWritesFrom200
  refine fun s bytes hf hw => ⟨rfl, rfl, hostLoad_not_fresh, fun hne hfresh hl => ⟨_, hostLoad_fits hne hfresh hf hl, rfl,
      storedMem_wf s.params bytes 0x200 hw, fun k b hb => ?_, fun a ha => read_storedMem_around hw (.inl hl) ha⟩,
    fun hl hfresh hp => ⟨_, hostLoad_too_long (List.ne_nil_of_length_pos (by omega)) hfresh hf hl hp, rfl,
      fun k b hb hk => read_storedMem_program hw (.inr (by simp [hp])) hb hk,
      fun a ha => read_storedMem_around hw (.inr (by simp [hp])) (.inl ha)⟩⟩
  have hk : k < bytes.length := (List.getElem?_eq_some_iff.mp hb).1
  exact read_storedMem_program hw (.inl hl) hb (by omega)

/-- Settles O59: the load leaves PC at 0x200 with the first word there. -/
theorem loadedProgramStarts : Obligations.LoadedProgramStarts := by
  unfold Obligations.LoadedProgramStarts
  intro hi lo rest i hl hd
  obtain ⟨_, _, _, hload, _⟩ := loadProgramWritesFrom200 State.reset (hi :: lo :: rest) rfl rfl
  obtain ⟨t, hok, ht, _, hbytes, _⟩ := hload (List.cons_ne_nil _ _) rfl (by simp; omega)
  have hpc : t.pc = 0x200 := congrArg State.pc ht
  have hfresh : t.fresh = false := congrArg State.fresh ht
  have hc : CanFetch t := ⟨congrArg State.faulted ht, congrArg State.halted ht, by rw [hpc]; decide⟩
  have hword : t.fetchWord = hi ++ lo := by
    have hhigh : t.byteAt 0x200 = hi := hbytes 0 hi rfl
    have hlow : t.byteAt 0x201 = lo := hbytes 1 lo rfl
    rw [State.fetchWord, hpc]
    exact congrArg₂ wordOfBytes hhigh hlow
  have hadvance : t.advance = { t with pc := 0x202 } := by
    rw [State.advance, hpc, ← hfresh]
    rfl
  refine ⟨t, hok, hpc, fun r => ?_, by rw [coreStep_run hc (hword ▸ hd), hadvance]⟩
  rw [ht]
  simp [State.getV, State.reset]

end Sys2Proof.Machine
